-- ==== Sys2Proof/Word.lean ====
section
/-! DEFINITION. The word types of the CORE (spec/00_scope.md rules R8, R10, R11): a byte, a 32-bit word of the
SHA-256 core and of the command channel, a 64-bit word of the SHA-512/384 core. Every value is unsigned and `+` is
addition modulo 2^N, which is what `BitVec` addition is. -/

namespace Sys2Proof

/-- One byte: the unit of DIN, of RSP and of the block buffer (R8, R90). -/
abbrev Byte := BitVec 8

/-- A 32-bit word: the word of the 256-bit variant and the unit of CMD (R8, R90). -/
abbrev Word32 := BitVec 32

/-- A 64-bit word: the word of the 512- and 384-bit variants, and the width of each length counter word (R8). -/
abbrev Word64 := BitVec 64

end Sys2Proof
end

