-- ==== Sys2Proof/Machine/Functions.lean ====
section
/-! DEFINITION. The pure word functions of both compression cores (spec/40_rotate_functions.md). -/

namespace Sys2Proof.Machine

/-- `rotr_N(x, n)` (R120). The distance is in 1 to N-1; no other rotation is ever formed (R121, U7; log entry 14), so
the definition asks for that fact, which `decide` finds at each of its fixed distances. -/
def rotr {w : Nat} (x : BitVec w) (n : Nat) (_inRange : 0 < n ∧ n < w := by decide) : BitVec w :=
  (x >>> n) ||| (x <<< (w - n))

/-- σ0 of the 32-bit core (R123); the last term is a shift (R122). -/
def smallSigma0W32 (x : Word32) : Word32 := rotr x 7 ^^^ rotr x 18 ^^^ (x >>> 3)

/-- σ1 of the 32-bit core (R124). -/
def smallSigma1W32 (x : Word32) : Word32 := rotr x 17 ^^^ rotr x 19 ^^^ (x >>> 10)

/-- Σ0 of the 32-bit core (R125). -/
def bigSigma0W32 (x : Word32) : Word32 := rotr x 2 ^^^ rotr x 13 ^^^ rotr x 22

/-- Σ1 of the 32-bit core (R126). -/
def bigSigma1W32 (x : Word32) : Word32 := rotr x 6 ^^^ rotr x 11 ^^^ rotr x 25

/-- σ0 of the 64-bit core (R127). -/
def smallSigma0W64 (x : Word64) : Word64 := rotr x 1 ^^^ rotr x 8 ^^^ (x >>> 7)

/-- σ1 of the 64-bit core (R128). -/
def smallSigma1W64 (x : Word64) : Word64 := rotr x 19 ^^^ rotr x 61 ^^^ (x >>> 6)

/-- Σ0 of the 64-bit core (R129). -/
def bigSigma0W64 (x : Word64) : Word64 := rotr x 28 ^^^ rotr x 34 ^^^ rotr x 39

/-- Σ1 of the 64-bit core (R130). -/
def bigSigma1W64 (x : Word64) : Word64 := rotr x 14 ^^^ rotr x 18 ^^^ rotr x 41

/-- `Ch(e, f, g)` of either width (R131). -/
def choice {w : Nat} (e f g : BitVec w) : BitVec w := (e &&& f) ^^^ (~~~e &&& g)

/-- `Maj(a, b, c)` of either width (R132). -/
def majority {w : Nat} (a b c : BitVec w) : BitVec w := (a &&& b) ^^^ (a &&& c) ^^^ (b &&& c)

end Sys2Proof.Machine
end

