-- ==== Sys2Proof/Config.lean ====
section
/-! DEFINITION. What the implementation fixes (spec/00_scope.md rules R8, R9) and the one free value of the model.
The constant tables (R16) are in Machine/Rom.lean. NUM_CORES is the length of `System.cores` (Machine/System.lean);
LATENCY has no counterpart, since the model has no time (log entry 11). -/

namespace Sys2Proof.Config

/-- Block size of the 32-bit core in bytes (R8). -/
abbrev blockBytes32 : Nat := 64

/-- Block size of the 64-bit core in bytes (R8). -/
abbrev blockBytes64 : Nat := 128

/-- Length field of the last block of the 32-bit core, in bytes (R8). -/
abbrev lengthBytes32 : Nat := 8

/-- Length field of the last block of the 64-bit core, in bytes (R8). -/
abbrev lengthBytes64 : Nat := 16

/-- Rounds, and schedule words, of the 32-bit core (R8). -/
abbrev rounds32 : Nat := 64

/-- Rounds, and schedule words, of the 64-bit core (R8). -/
abbrev rounds64 : Nat := 80

/-- Digest length of V384 in bytes (R8, R258). -/
abbrev digestBytes384 : Nat := 48

/-- `LEN_BITS`, the width of UPDATE's length field (R9, R94). -/
abbrev lenBits : Nat := 24

/-- The longest payload of one UPDATE, 2^24 - 1 bytes (R94, R102). -/
abbrev maxPayload : Nat := 2 ^ lenBits - 1

/-- FREE VALUE. What a buffer byte holds after a pass of UPDATE has emptied the buffer and before a byte is absorbed
into it: "its bytes become undefined in the sense of 10_state.md rule R41" (R218, D24, U8). `draw` numbers the
pass (State.draws), `index` is the byte's place. No body: nothing can be proved of its value. DESIGN CHOICE: it
depends on nothing else, so two runs with the same passes leave the same bytes (log entry 6). -/
opaque staleByte (draw index : Nat) : Byte

end Sys2Proof.Config
end

