-- ==== Sys2Proof/Syntax.lean ====
section
/-! DEFINITION. The commands of the CORE, one constructor per row of spec/opcode_table.json, and the three
variants they select. -/

namespace Sys2Proof

/-- The hash variants (spec/10_state.md rule R34): the values of the control register `variant`. -/
inductive Variant where
  /-- SHA-256, code 0x00. -/
  | v256
  /-- SHA-512, code 0x01. -/
  | v512
  /-- SHA-384, code 0x02. -/
  | v384
  deriving DecidableEq, Repr

/-- The commands (spec/30_encoding.md rules R91 to R96). A command names no register: it acts on the context and, for
UPDATE, on the payload that follows on DIN (R98, R100). -/
inductive Instr where
  /-- INIT.256 (R213). -/
  | init256
  /-- INIT.512 (R214). -/
  | init512
  /-- INIT.384 (R215). -/
  | init384
  /-- UPDATE n (R216): `n` is the payload length in bytes, `zext_32(cmd[23:0])` (R94). -/
  | update (n : Nat)
  /-- FINALIZE (R250). -/
  | finalize
  deriving DecidableEq, Repr

end Sys2Proof
end

