-- ==== Sys2Proof/Machine/State.lean ====
section
/-! DEFINITION. The state of one CORE instance (spec/10_state.md), as plain data: the control registers, the context
in its two shapes, the trace and the response channel, what the host will do next, and the machine after reset
(R47). -/

namespace Sys2Proof.Machine

/-- The values of the control register `phase` (R35). -/
inductive Phase where
  | uninitialized
  | initialized
  | accumulating
  | finalized
  | faulted
  deriving DecidableEq, Repr

/-- The status of a response (spec/60_exceptions.md rule R292). Codes 0x07 to 0xFF are never produced, so they have no
constructor; `Status.code` (Machine/Flags.lean) gives the 8-bit codes. -/
inductive Status where
  | ok
  | errUninitialized
  | errFinalized
  | errIllegalCommand
  | errIllegalVariant
  | errLengthOverflow
  | errFaulted
  deriving DecidableEq, Repr

/-- The part both context shapes share (R31, R32), for words of `w` bits and blocks of `bs` bytes: the chaining value,
the block buffer and the count of its valid bytes. `buffer_len < BS` between commands (R33) is the field's type. -/
structure Stream (w bs : Nat) where
  /-- `H[0..7]`, the chaining value (the source's `state`). -/
  H : Vector (BitVec w) 8
  /-- `buf[0..BS-1]`, the address space BUF (R60). -/
  buf : Vector Byte bs
  /-- `buffer_len`, the number of valid bytes. -/
  bufferLen : Fin bs
  deriving DecidableEq, Repr

/-- `Ctx32`, the context of V256 (R31). -/
structure Ctx32 extends Stream 32 Config.blockBytes32 where
  /-- `bit_length`: total message bits absorbed. -/
  bitLength : Word64
  deriving DecidableEq, Repr

/-- `Ctx64`, the context of V512 and V384 (R32). -/
structure Ctx64 extends Stream 64 Config.blockBytes64 where
  /-- `bit_length_hi`: the high word of the 128-bit counter. -/
  bitLengthHi : Word64
  /-- `bit_length_lo`: the low word of the 128-bit counter. -/
  bitLengthLo : Word64
  deriving DecidableEq, Repr

/-- The context, a sum of the two shapes (R30). -/
inductive Context where
  | ctx32 (c : Ctx32)
  | ctx64 (c : Ctx64)
  deriving DecidableEq, Repr

/-- One compression pass as the trace records it (R40): the chaining value before, the block, the chaining value
after. -/
structure Pass (w bs : Nat) where
  hin : Vector (BitVec w) 8
  block : Vector Byte bs
  hout : Vector (BitVec w) 8
  deriving DecidableEq, Repr

/-- The events of the trace (R40). -/
inductive Event where
  /-- `Compress(32, Hin, block, Hout)`. -/
  | compress32 (p : Pass 32 Config.blockBytes32)
  /-- `Compress(64, Hin, block, Hout)`. -/
  | compress64 (p : Pass 64 Config.blockBytes64)
  /-- `Response(status, data)`. -/
  | response (status : Status) (data : List Byte)
  /-- `Reset`. -/
  | reset
  deriving DecidableEq, Repr

/-- What the host does to the instance, in the order it does it (R90, R98, R330; log entry 1). -/
inductive HostAction where
  /-- A command word on CMD. -/
  | command (cmd : Word32)
  /-- A payload byte on DIN. -/
  | payload (x : Byte)
  /-- The reset input, asserted while no complete command is in progress. -/
  | reset
  /-- The command word `cmd` with the payload bytes `data`, and then the reset input asserted before the response: the
  command is abandoned and the rest of its payload discarded (R330, R332; log entry 5). With more bytes than `cmd` takes
  it is outside the protocol (R336; log entry 4). -/
  | resetDuring (cmd : Word32) (data : List Byte)
  deriving DecidableEq, Repr

/-- The state of one CORE instance. -/
structure State where
  /-- `phase` (R35). -/
  phase : Phase
  /-- `fault_code` (R37). -/
  faultCode : BitVec 8
  /-- `variant` (R34). -/
  variant : Variant
  /-- The context (R30 to R32). -/
  ctx : Context
  /-- The trace, oldest event first (R40). -/
  trace : List Event
  /-- RSP: the bytes delivered to the host, oldest first (R90, R99; log entry 8). -/
  rsp : List Byte
  /-- CMD, DIN and the reset input: the host's actions not yet taken, next first (R90; log entry 1). -/
  host : List HostAction
  /-- The length of an UPDATE that was taken from CMD and waits for its payload (R336; log entry 3). -/
  pending : Option Nat
  /-- The model's own counter of free values (log entry 6). -/
  draws : Nat
  deriving DecidableEq, Repr

/-- The machine stops. No fault of the spec is one of these: those are responses, and next states (R294). -/
inductive Fault where
  /-- Raised by UPDATE when the host issues a command word, or a command it then cuts short by a reset, while the
  UPDATE waits for payload bytes: a breach of the host duties R335 and R336, after which the instance has no step ("the
  run is stuck or outside the model"). Safe: the machine stops where a part might go on (log entry 4). -/
  | commandWhileWaiting
  deriving DecidableEq, Repr

/-- The model gives no meaning. -/
inductive Refusal where
  /-- Raised by `exec` for an instruction that has no meaning yet; none is left. Safe. -/
  | notModelled (mnemonic : String)
  /-- Raised by `step` when the host delivers a payload byte that no UPDATE waits for, as its next action or beyond the
  payload of a command that a reset cuts short: "outside the protocol" (R336; U15: refuse). Safe: the machine stops where a
  part might go on (log entry 4). -/
  | strayPayload
  deriving DecidableEq, Repr

/-- The all-zero `Ctx32` (R47, R259). -/
def Ctx32.zero : Ctx32 :=
  { H := Vector.replicate 8 0, buf := Vector.replicate Config.blockBytes32 0, bufferLen := 0, bitLength := 0 }

/-- The instance right after its first reset: the values of R47. Before it the trace and RSP are empty, and the host
has not acted yet (log entry 7). -/
def State.reset : State :=
  { phase := .uninitialized
    faultCode := 0x00
    variant := .v256
    ctx := .ctx32 Ctx32.zero
    trace := [.reset]
    rsp := []
    host := []
    pending := none
    draws := 0 }

end Sys2Proof.Machine
end

