-- ==== Sys2Proof/Machine/Operands.lean ====
section
/-! DEFINITION. The operands of a command: the byte order in which words are read and written (spec/00_scope.md rule
R12, spec/20_memory.md rules R63, R64) and the payload an UPDATE takes from DIN (spec/30_encoding.md rule R98). -/

namespace Sys2Proof.Machine

/-- The unsigned number whose bytes, most significant first, are `bytes` (R12). -/
def beNat (bytes : List Byte) : Nat := bytes.foldl (fun acc x => acc * 256 + x.toNat) 0

/-- `BE_N` (R12): the word of `w` bits whose most significant byte comes first. -/
def wordOfBE (w : Nat) (bytes : List Byte) : BitVec w := BitVec.ofNat w (beNat bytes)

/-- `bytes_BE_N` (R12): the `w/8` bytes of `x`, most significant first. -/
def bytesBE {w : Nat} (x : BitVec w) : List Byte :=
  (List.range (w / 8)).map fun i => x.extractLsb' (w - 8 * (i + 1)) 8

/-- What the host's next actions give an UPDATE that takes `n` payload bytes (R98, R336). -/
inductive Payload where
  /-- All `n` bytes are there; `rest` is what the host does next. -/
  | complete (data : List Byte) (rest : List HostAction)
  /-- The host has not delivered all of them yet. -/
  | short
  /-- Reset was asserted first (R330); `rest` is what the host does next. -/
  | reset (rest : List HostAction)
  /-- The host issued a command first, in breach of R335 and R336. -/
  | interrupted
  deriving DecidableEq, Repr

/-- R330: the remaining payload of a command abandoned by reset, at most `n` bytes, is discarded (DEDUCED, log entry 5).
DESIGN CHOICE: it ends at the first action that is no payload byte, whatever is still owed; the spec does not say what
becomes of bytes after such an action (log entry 20). -/
def discardPayload : Nat → List HostAction → List HostAction
  | n + 1, .payload _ :: rest => discardPayload n rest
  | _, actions => actions

/-- Prefixes a payload byte that has been taken. -/
def Payload.cons (x : Byte) : Payload → Payload
  | .complete data rest => .complete (x :: data) rest
  | .short => .short
  | .reset rest => .reset rest
  | .interrupted => .interrupted

/-- Takes `n` payload bytes from the host's next actions, in order (R98). -/
def takePayload : Nat → List HostAction → Payload
  | 0, rest => .complete [] rest
  | _ + 1, [] => .short
  | n + 1, .payload x :: rest => (takePayload n rest).cons x
  | n + 1, .reset :: rest => .reset (discardPayload (n + 1) rest)
  | _ + 1, .command _ :: _ => .interrupted
  | _ + 1, .resetDuring _ _ :: _ => .interrupted

end Sys2Proof.Machine
end

