-- ==== Sys2Proof/Machine/Compress.lean ====
section
/-! DEFINITION. The two compression cores (spec/41_compress32.md, spec/42_compress64.md). They have "identical
structure" (FH §4.3), so each step is written once, for words of `w` bits and blocks of `bs` bytes, over the four σ and
Σ functions of the core; COMPRESS32 and COMPRESS64 are its two instances. The order of the steps inside a pass is not
visible (R158, R189): the model computes the function. -/

namespace Sys2Proof.Machine

/-- The four functions in which the two cores differ, beside their constants. -/
structure SigmaFunctions (w : Nat) where
  smallSigma0 : BitVec w → BitVec w
  smallSigma1 : BitVec w → BitVec w
  bigSigma0 : BitVec w → BitVec w
  bigSigma1 : BitVec w → BitVec w

/-- The functions of the 32-bit core (R123 to R126). -/
def sigmaW32 : SigmaFunctions 32 := ⟨smallSigma0W32, smallSigma1W32, bigSigma0W32, bigSigma1W32⟩

/-- The functions of the 64-bit core (R127 to R130). -/
def sigmaW64 : SigmaFunctions 64 := ⟨smallSigma0W64, smallSigma1W64, bigSigma0W64, bigSigma1W64⟩

/-- The block's 16 words, big-endian (R150, R180): word `t` is made of bytes `WB·t` to `WB·t + WB - 1`. -/
def blockWords {bs : Nat} (w : Nat) (block : Vector Byte bs) : List (BitVec w) :=
  (List.range 16).map fun t => wordOfBE w ((block.toList.drop (w / 8 * t)).take (w / 8))

/-- The next schedule word from the ones before it, latest first (R151, R181):
`W[t-16] + σ0(W[t-15]) + W[t-7] + σ1(W[t-2])`. -/
def nextScheduleWord {w : Nat} (f : SigmaFunctions w) (latest : List (BitVec w)) : BitVec w :=
  latest.getD 15 0 + f.smallSigma0 (latest.getD 14 0) + latest.getD 6 0 + f.smallSigma1 (latest.getD 1 0)

/-- Extends a schedule, held latest word first, by `n` words in increasing `t` (R151, R181). -/
def extendSchedule {w : Nat} (f : SigmaFunctions w) : Nat → List (BitVec w) → List (BitVec w)
  | 0, latest => latest
  | n + 1, latest => extendSchedule f n (nextScheduleWord f latest :: latest)

/-- The message schedule `W[0..rounds-1]`: R150 and R151, or R180 and R181. -/
def schedule {w bs : Nat} (f : SigmaFunctions w) (rounds : Nat) (block : Vector Byte bs) : List (BitVec w) :=
  (extendSchedule f (rounds - 16) (blockWords w block).reverse).reverse

/-- The working variables `a` to `h` of a pass (R39). -/
structure Working (w : Nat) where
  a : BitVec w
  b : BitVec w
  c : BitVec w
  d : BitVec w
  e : BitVec w
  f : BitVec w
  g : BitVec w
  h : BitVec w
  deriving DecidableEq, Repr

/-- The working variables before round 0 (R153, R183). -/
def Working.load {w : Nat} (H : Vector (BitVec w) 8) : Working w :=
  ⟨H[0], H[1], H[2], H[3], H[4], H[5], H[6], H[7]⟩

/-- The working variables in the order of the chaining words they are added to (R155, R185). -/
def Working.toVector {w : Nat} (v : Working w) : Vector (BitVec w) 8 := #v[v.a, v.b, v.c, v.d, v.e, v.f, v.g, v.h]

/-- `T1` of a round (R154, R184). -/
def Working.t1 {w : Nat} (f : SigmaFunctions w) (v : Working w) (k word : BitVec w) : BitVec w :=
  v.h + f.bigSigma1 v.e + choice v.e v.f v.g + k + word

/-- `T2` of a round (R154, R184). -/
def Working.t2 {w : Nat} (f : SigmaFunctions w) (v : Working w) : BitVec w :=
  f.bigSigma0 v.a + majority v.a v.b v.c

/-- One round, with its round constant and schedule word (R154, R184). -/
def Working.round {w : Nat} (f : SigmaFunctions w) (v : Working w) (kw : BitVec w × BitVec w) : Working w :=
  { a := v.t1 f kw.1 kw.2 + v.t2 f
    b := v.a
    c := v.b
    d := v.c
    e := v.d + v.t1 f kw.1 kw.2
    f := v.e
    g := v.f
    h := v.g }

/-- The rounds of a pass, in increasing `t` (R154, R184). -/
def runRounds {w bs : Nat} (f : SigmaFunctions w) (k : List (BitVec w)) (hin : Vector (BitVec w) 8)
    (block : Vector Byte bs) : Working w :=
  (k.zip (schedule f k.length block)).foldl (Working.round f) (Working.load hin)

/-- A compression pass: decode, schedule, rounds, feed-forward (R156, R186). -/
def compress {w bs : Nat} (f : SigmaFunctions w) (k : List (BitVec w)) (hin : Vector (BitVec w) 8)
    (block : Vector Byte bs) : Vector (BitVec w) 8 :=
  Vector.zipWith (· + ·) hin (runRounds f k hin block).toVector

/-- COMPRESS32 (R156). -/
def compress32 (hin : Vector Word32 8) (block : Vector Byte Config.blockBytes32) : Vector Word32 8 :=
  compress sigmaW32 romK256 hin block

/-- COMPRESS64 (R186), the same for V512 and V384 (R188). -/
def compress64 (hin : Vector Word64 8) (block : Vector Byte Config.blockBytes64) : Vector Word64 8 :=
  compress sigmaW64 romK512 hin block

end Sys2Proof.Machine
end

