-- ==== Sys2Proof/WellFormed.lean ====
section
/-! DEFINITION. Which commands a command word can carry: UPDATE's length fits its 24-bit field
(spec/30_encoding.md rule R94). No other command has an operand (R93, R95, R100). -/

namespace Sys2Proof

/-- The command has an encoding (R91 to R95). -/
def Instr.wellFormed : Instr → Bool
  | .init256 => true
  | .init512 => true
  | .init384 => true
  | .update n => decide (n < 2 ^ Config.lenBits)
  | .finalize => true

end Sys2Proof
end

