-- ==== Sys2Proof/Decode.lean ====
section
/-! DEFINITION. The command word (spec/30_encoding.md rules R91 to R97): its fields, the decoder, total on every
32-bit word and rejecting by name, and the encoder. A command word is a value with no byte view (R65), so the decoder
takes the word itself (log entry 2). -/

namespace Sys2Proof

/-- The opcode field `cmd[31:24]` (R91). -/
def cmdOp (cmd : Word32) : BitVec 8 := cmd.extractLsb' 24 8

/-- The argument field `cmd[23:0]` (R91): UPDATE's length (R94), FINALIZE's reserved field (R95). -/
def cmdArg (cmd : Word32) : BitVec 24 := cmd.extractLsb' 0 24

/-- INIT's reserved field `cmd[23:8]` (R93). -/
def cmdInitReserved (cmd : Word32) : BitVec 16 := cmd.extractLsb' 8 16

/-- INIT's variant field `cmd[7:0]` (R93). -/
def cmdVariant (cmd : Word32) : BitVec 8 := cmd.extractLsb' 0 8

/-- Why a word is no command (R96): the code it faults with. -/
inductive IllegalWord where
  /-- A reserved opcode or a non-zero reserved field: ERR_ILLEGAL_COMMAND (R298). -/
  | illegalCommand
  /-- INIT with a variant code 0x03 to 0xFF: ERR_ILLEGAL_VARIANT (R299). -/
  | illegalVariant
  deriving DecidableEq, Repr

/-- What a command word means (R96). -/
inductive Decoded where
  /-- One of the five commands. -/
  | command (i : Instr)
  /-- `Illegal(code)`. -/
  | illegal (e : IllegalWord)
  deriving DecidableEq, Repr

/-- The decoder of R96. An INIT word's reserved field is looked at before its variant. -/
def decode (cmd : Word32) : Decoded :=
  if cmdOp cmd = 0x01 then
    if cmdInitReserved cmd ≠ 0 then .illegal .illegalCommand
    else if cmdVariant cmd = 0x00 then .command .init256
    else if cmdVariant cmd = 0x01 then .command .init512
    else if cmdVariant cmd = 0x02 then .command .init384
    else .illegal .illegalVariant
  else if cmdOp cmd = 0x02 then .command (.update (cmdArg cmd).toNat)
  else if cmdOp cmd = 0x03 then
    if cmdArg cmd ≠ 0 then .illegal .illegalCommand
    else .command .finalize
  else .illegal .illegalCommand

/-- The word of a well-formed command, from the encodings of R213 to R216 and R250. -/
def encode : Instr → Word32
  | .init256 => 0x01000000
  | .init512 => 0x01000001
  | .init384 => 0x01000002
  | .update n => 0x02#8 ++ BitVec.ofNat 24 n
  | .finalize => 0x03000000

/-- The command whose word, `nbits` bits of it given and the rest 0, is `w`: every row of spec/opcode_table.json is one
32-bit word. An UPDATE's payload is no part of the word (R98). -/
def decodeTableWord (nbits w : Nat) : Option Instr :=
  match decode (BitVec.ofNat 32 (w % 2 ^ nbits)) with
  | .command i => some i
  | .illegal _ => none

end Sys2Proof
end

