-- ==== Sys2Proof/Machine/Flags.lean ====
section
/-! DEFINITION. The status codes (spec/60_exceptions.md rule R292) and the bit-length counters: the length check
(R221) and the addition with carry (R219, R220). The CORE has no condition flags (R43); the carry from
`bit_length_lo` into `bit_length_hi` is the only carry it keeps. -/

namespace Sys2Proof.Machine

/-- The 8-bit code of a status (R292). -/
def Status.code : Status → Byte
  | .ok => 0x00
  | .errUninitialized => 0x01
  | .errFinalized => 0x02
  | .errIllegalCommand => 0x03
  | .errIllegalVariant => 0x04
  | .errLengthOverflow => 0x05
  | .errFaulted => 0x06

/-- `bit_length` of Ctx32 as an integer (R31, R45). -/
def Ctx32.bits (c : Ctx32) : Nat := c.bitLength.toNat

/-- `bit_length_hi · 2^64 + bit_length_lo` of Ctx64 as an integer (R32, R45). -/
def Ctx64.bits (c : Ctx64) : Nat := c.bitLengthHi.toNat * 2 ^ 64 + c.bitLengthLo.toNat

/-- The length check of R221 for Ctx32: `8n` more bits fit in 64. -/
def hasRoom32 (c : Ctx32) (n : Nat) : Bool := decide (c.bits + 8 * n < 2 ^ 64)

/-- The length check of R221 for Ctx64: `8n` more bits fit in 128. -/
def hasRoom64 (c : Ctx64) (n : Nat) : Bool := decide (c.bits + 8 * n < 2 ^ 128)

/-- R219: `bit_length <- bit_length + 8n`. -/
def countBits32 (c : Ctx32) (n : Nat) : Word64 := c.bitLength + BitVec.ofNat 64 (8 * n)

/-- R220: the exact sum `bit_length_lo + 8n`, as an integer. -/
def lowSum (lo : Word64) (n : Nat) : Nat := lo.toNat + 8 * n

/-- R220: the low word of the sum. -/
def countBitsLo (lo : Word64) (n : Nat) : Word64 := BitVec.ofNat 64 (lowSum lo n)

/-- R220: the high word, plus the carry out of the low one. -/
def countBitsHi (hi lo : Word64) (n : Nat) : Word64 := hi + if lowSum lo n ≥ 2 ^ 64 then 1 else 0

end Sys2Proof.Machine
end

