-- ==== Sys2Proof/Machine/Ops.lean ====
section
/-! DEFINITION. The operations the commands share: the response (spec/30_encoding.md rule R99), fault entry and the
acceptance checks (spec/60_exceptions.md rules R293, R294, R300), reset, which is the only way out of a fault
(spec/70_reset_and_hazards.md rule R330), zeroization (R259), and the accesses to the block buffer. -/

namespace Sys2Proof.Machine

/-- `respond(status, data)` (R99): the status byte and the data go out on RSP, and the trace records it. -/
def State.respond (s : State) (status : Status) (data : List Byte) : State :=
  { s with trace := s.trace ++ [.response status data], rsp := s.rsp ++ status.code :: data }

/-- TAKING A FAULT (R294): `phase <- Faulted; fault_code <- code; respond(code, empty)`, and nothing else. -/
def State.raiseFault (s : State) (code : Status) : State :=
  { s with phase := .faulted, faultCode := code.code }.respond code []

/-- RESET (R330), the only way out of the Faulted phase (R301): every piece of state takes its value of R47, the trace
keeps its events and gains a `Reset`. What went out on RSP has gone out, and what the host does next is the host's
(log entry 7). -/
def State.applyReset (s : State) : State :=
  { State.reset with trace := s.trace ++ [.reset], rsp := s.rsp, host := s.host, draws := s.draws }

/-- Zeroization (R259): every field of the context, and `variant`, which makes the shape Ctx32. -/
def State.zeroize (s : State) : State := { s with variant := .v256, ctx := .ctx32 Ctx32.zero }

/-- The acceptance checks of R293, steps 1 and 3: `needsContext` is true of UPDATE and FINALIZE. A command that passes
runs `execute`. -/
def State.accept (s : State) (needsContext : Bool) (execute : State → State) : State :=
  match s.phase with
  | .faulted => s.respond .errFaulted []
  | .uninitialized => if needsContext then s.raiseFault .errUninitialized else execute s
  | .finalized => if needsContext then s.raiseFault .errFinalized else execute s
  | .initialized => execute s
  | .accumulating => execute s

/-- The status of an illegal word (R298, R299). -/
def illegalStatus : IllegalWord → Status
  | .illegalCommand => .errIllegalCommand
  | .illegalVariant => .errIllegalVariant

/-- An illegal word: steps 1 and 2 of R293. -/
def State.rejectWord (s : State) (e : IllegalWord) : State :=
  match s.phase with
  | .faulted => s.respond .errFaulted []
  | .uninitialized => s.raiseFault (illegalStatus e)
  | .initialized => s.raiseFault (illegalStatus e)
  | .accumulating => s.raiseFault (illegalStatus e)
  | .finalized => s.raiseFault (illegalStatus e)

/-- `MemWrite(BUF, i, 1, x)` (R60): one byte of the block buffer. -/
def bufWrite {bs : Nat} (buf : Vector Byte bs) (i : Fin bs) (x : Byte) : Vector Byte bs := buf.set i x

/-- Writes 0x00 to the buffer bytes `lo` to `hi - 1` (R252, R255). -/
def bufZeroFill {bs : Nat} (buf : Vector Byte bs) (lo hi : Nat) : Vector Byte bs :=
  Vector.ofFn fun i => if lo ≤ i.val ∧ i.val < hi then 0x00 else buf[i]

/-- Writes `bytes` to the buffer from index `at` on (R253, R254). -/
def bufWriteBytes {bs : Nat} (buf : Vector Byte bs) (start : Nat) (bytes : List Byte) : Vector Byte bs :=
  Vector.ofFn fun i => if start ≤ i.val then bytes.getD (i.val - start) buf[i] else buf[i]

/-- The buffer after a pass of UPDATE has emptied it: every byte is a free value (R41, R218; log entry 6). -/
def staleBuffer (bs draw : Nat) : Vector Byte bs := Vector.ofFn fun i => Config.staleByte draw i.val

end Sys2Proof.Machine
end

