-- ==== Sys2Proof/Machine/Streaming.lean ====
section
/-! DEFINITION. Initialization and streaming input (spec/43_streaming.md): INIT.256, INIT.512, INIT.384 and UPDATE. -/

namespace Sys2Proof.Machine

/-- The context of INIT.256 (R213). -/
def Ctx32.init : Ctx32 := { Ctx32.zero with H := iv256 }

/-- The context of INIT.512 and INIT.384, from its chaining value (R214, R215). -/
def Ctx64.init (iv : Vector Word64 8) : Ctx64 :=
  { H := iv, buf := Vector.replicate Config.blockBytes64 0, bufferLen := 0, bitLengthHi := 0, bitLengthLo := 0 }

/-- The body of the three INIT commands: a new variant and context, phase Initialized, response OK. -/
def State.initialize (s : State) (variant : Variant) (ctx : Context) : State :=
  { s with variant := variant, ctx := ctx, phase := .initialized }.respond .ok []

/-- INIT.256 (R213). -/
def execInit256 (s : State) : Host.Outcome State Fault Refusal :=
  .next (s.accept false fun s => s.initialize .v256 (.ctx32 Ctx32.init))

/-- INIT.512 (R214). -/
def execInit512 (s : State) : Host.Outcome State Fault Refusal :=
  .next (s.accept false fun s => s.initialize .v512 (.ctx64 (Ctx64.init iv512)))

/-- INIT.384 (R215). -/
def execInit384 (s : State) : Host.Outcome State Fault Refusal :=
  .next (s.accept false fun s => s.initialize .v384 (.ctx64 (Ctx64.init iv384)))

/-- What UPDATE's loop carries: the chaining value and buffer, the passes so far and the counter of free values. -/
structure Absorbing (w bs : Nat) where
  stream : Stream w bs
  passes : List (Pass w bs)
  draws : Nat
  deriving DecidableEq, Repr

/-- absorb(x) (R217), with the block completion of R218. -/
def Absorbing.absorb {w bs : Nat} (compress : Vector (BitVec w) 8 → Vector Byte bs → Vector (BitVec w) 8)
    (r : Absorbing w bs) (x : Byte) : Absorbing w bs :=
  let st := r.stream
  let buf := bufWrite st.buf st.bufferLen x
  if h : st.bufferLen.val + 1 < bs then
    { r with stream := { st with buf := buf, bufferLen := ⟨st.bufferLen.val + 1, h⟩ } }
  else
    let hout := compress st.H buf
    { stream := { H := hout, buf := staleBuffer bs r.draws, bufferLen := ⟨0, Nat.zero_lt_of_lt st.bufferLen.isLt⟩ }
      passes := r.passes ++ [{ hin := st.H, block := buf, hout := hout }]
      draws := r.draws + 1 }

/-- UPDATE's loop: the payload bytes in order (R216, R217). -/
def absorbAll {w bs : Nat} (compress : Vector (BitVec w) 8 → Vector Byte bs → Vector (BitVec w) 8)
    (st : Stream w bs) (draws : Nat) (data : List Byte) : Absorbing w bs :=
  data.foldl (Absorbing.absorb compress) { stream := st, passes := [], draws := draws }

/-- UPDATE(data) on a Ctx32 (R216, R219, R221). -/
def State.update32 (s : State) (c : Ctx32) (data : List Byte) : State :=
  if hasRoom32 c data.length then
    let r := absorbAll compress32 c.toStream s.draws data
    { s with
      phase := .accumulating
      ctx := .ctx32 { r.stream with bitLength := countBits32 c data.length }
      trace := s.trace ++ r.passes.map Event.compress32
      draws := r.draws }.respond .ok []
  else s.raiseFault .errLengthOverflow

/-- UPDATE(data) on a Ctx64 (R216, R220, R221). -/
def State.update64 (s : State) (c : Ctx64) (data : List Byte) : State :=
  if hasRoom64 c data.length then
    let r := absorbAll compress64 c.toStream s.draws data
    { s with
      phase := .accumulating
      ctx := .ctx64
        { r.stream with
          bitLengthHi := countBitsHi c.bitLengthHi c.bitLengthLo data.length
          bitLengthLo := countBitsLo c.bitLengthLo data.length }
      trace := s.trace ++ r.passes.map Event.compress64
      draws := r.draws }.respond .ok []
  else s.raiseFault .errLengthOverflow

/-- UPDATE(data) after its acceptance checks, on either shape; the shape selects the core (R34, R218). -/
def State.update (s : State) (data : List Byte) : State :=
  match s.ctx with
  | .ctx32 c => s.update32 c data
  | .ctx64 c => s.update64 c data

/-- UPDATE n (R216): takes its payload from DIN and, when all of it is there, is accepted and runs. The payload is
consumed whatever the outcome (R98, R294, R300). With too few bytes it waits (R336); a reset during the wait abandons
it (R330). -/
def execUpdate (n : Nat) (s : State) : Host.Outcome State Fault Refusal :=
  match takePayload n s.host with
  | .complete data rest => .next ({ s with host := rest }.accept true fun s => s.update data)
  | .short => .next { s with pending := some n }
  | .reset rest => .next { s with host := rest }.applyReset
  | .interrupted => .fault .commandWhileWaiting

end Sys2Proof.Machine
end

