-- ==== Sys2Proof/Machine/Finalize.lean ====
section
/-! DEFINITION. Padding and finalization (spec/44_finalize.md): FINALIZE. -/

namespace Sys2Proof.Machine

/-- Where padding stands after the terminator and, if it was needed, the overflow block: the chaining value, the
buffer, the position `p` and the passes so far (R250). -/
structure Padding (w bs : Nat) where
  H : Vector (BitVec w) 8
  buf : Vector Byte bs
  pos : Nat
  passes : List (Pass w bs)
  deriving DecidableEq, Repr

/-- The terminator (R251) and the overflow block (R252), for a length field of `lf` bytes. -/
def Stream.terminate {w bs : Nat} (compress : Vector (BitVec w) 8 → Vector Byte bs → Vector (BitVec w) 8) (lf : Nat)
    (st : Stream w bs) : Padding w bs :=
  let buf := bufWrite st.buf st.bufferLen 0x80
  let p := st.bufferLen.val + 1
  if p > bs - lf then
    let full := bufZeroFill buf p bs
    let hout := compress st.H full
    { H := hout, buf := Vector.replicate bs 0x00, pos := 0, passes := [{ hin := st.H, block := full, hout := hout }] }
  else { H := st.H, buf := buf, pos := p, passes := [] }

/-- The last block (R253 to R255): zeros up to the length field, and the length field. -/
def Padding.lastBlock {w bs : Nat} (p : Padding w bs) (lengthField : List Byte) : Vector Byte bs :=
  bufWriteBytes (bufZeroFill p.buf p.pos (bs - lengthField.length)) (bs - lengthField.length) lengthField

/-- All of FINALIZE's passes, the last one included (R251 to R256). -/
def Stream.finalPasses {w bs : Nat} (compress : Vector (BitVec w) 8 → Vector Byte bs → Vector (BitVec w) 8)
    (lengthField : List Byte) (st : Stream w bs) : Padding w bs :=
  let p := st.terminate compress lengthField.length
  let last := p.lastBlock lengthField
  let hout := compress p.H last
  { p with H := hout, buf := last, passes := p.passes ++ [{ hin := p.H, block := last, hout := hout }] }

/-- Serialization (R257): the chaining words in order, each most significant byte first. -/
def serialize {w : Nat} (H : Vector (BitVec w) 8) : List Byte := H.toList.flatMap bytesBE

/-- Truncation (R258): V384 keeps the first 48 bytes. -/
def truncateDigest (variant : Variant) (digest : List Byte) : List Byte :=
  match variant with
  | .v256 => digest
  | .v512 => digest
  | .v384 => digest.take Config.digestBytes384

/-- The end of FINALIZE: zeroization (R259), phase Finalized (R260), response OK with the digest. -/
def State.finish (s : State) (passes : List Event) (digest : List Byte) : State :=
  { s with phase := .finalized, trace := s.trace ++ passes }.zeroize.respond .ok digest

/-- FINALIZE after its acceptance checks (R250), on either shape. -/
def State.finalize (s : State) : State :=
  match s.ctx with
  | .ctx32 c =>
    let p := c.toStream.finalPasses compress32 (bytesBE c.bitLength)
    s.finish (p.passes.map Event.compress32) (truncateDigest s.variant (serialize p.H))
  | .ctx64 c =>
    let p := c.toStream.finalPasses compress64 (bytesBE c.bitLengthHi ++ bytesBE c.bitLengthLo)
    s.finish (p.passes.map Event.compress64) (truncateDigest s.variant (serialize p.H))

/-- FINALIZE (R250). -/
def execFinalize (s : State) : Host.Outcome State Fault Refusal :=
  .next (s.accept true State.finalize)

end Sys2Proof.Machine
end

