-- ==== Sys2Proof/Machine/Dispatch.lean ====
section
/-! DEFINITION. The meaning of each command, one arm per constructor of Instr. -/

namespace Sys2Proof.Machine

def exec (i : Instr) (s : State) : Host.Outcome State Fault Refusal :=
  match i with
  | .init256 => Sys2Proof.Machine.execInit256 s
  | .init512 => Sys2Proof.Machine.execInit512 s
  | .init384 => Sys2Proof.Machine.execInit384 s
  | .update n => Sys2Proof.Machine.execUpdate n s
  | .finalize => Sys2Proof.Machine.execFinalize s

end Sys2Proof.Machine
end

