-- ==== Sys2Proof/Machine/Fetch.lean ====
section
/-! DEFINITION. What an instance does next: it has no program counter and fetches nothing (spec/10_state.md rule R42,
spec/20_memory.md rule R77); it takes the host's next action, or goes on waiting for the payload of an UPDATE. -/

namespace Sys2Proof.Machine

/-- What the next step does. -/
inductive Fetched where
  /-- Runs the command `i` in the state `s`. -/
  | run (i : Instr) (s : State)
  /-- Answers an illegal word in the state `s` (R293). -/
  | reject (e : IllegalWord) (s : State)
  /-- The reset input is asserted in the state `s` (R330). -/
  | reset (s : State)
  /-- The host has done nothing: the instance is idle (R309). -/
  | idle
  /-- A payload byte no UPDATE waits for (R336, U15). -/
  | stray
  deriving DecidableEq, Repr

/-- How many payload bytes a command word takes: n for UPDATE n, and none for every other word (R98). -/
def payloadLength : Decoded → Nat
  | .command (.update n) => n
  | .command .init256 => 0
  | .command .init512 => 0
  | .command .init384 => 0
  | .command .finalize => 0
  | .illegal _ => 0

/-- Takes the next command (R72, R96), or resumes the UPDATE that waits for payload (R336). A command that a reset cuts
short leaves the rest of its payload, which is discarded (R330; that the bytes which stand after the reset are that rest
is DEDUCED, log entry 5). DESIGN CHOICE: bytes delivered beyond the payload its word takes are bytes no UPDATE waits for,
so the reset does not hide them and the step refuses (log entry 4). -/
def fetch (s : State) : Fetched :=
  match s.pending with
  | some n => .run (.update n) { s with pending := none }
  | none =>
    match s.host with
    | [] => .idle
    | .command cmd :: rest =>
      match decode cmd with
      | .command i => .run i { s with host := rest }
      | .illegal e => .reject e { s with host := rest }
    | .payload _ :: _ => .stray
    | .reset :: rest => .reset { s with host := rest }
    | .resetDuring cmd data :: rest =>
      if data.length ≤ payloadLength (decode cmd) then
        .reset { s with host := discardPayload (payloadLength (decode cmd) - data.length) rest }
      else .stray

/-- The payload that goes with a command word whose operand bytes are zeros (R98). -/
def zeroPayload (d : Decoded) : List HostAction := List.replicate (payloadLength d) (.payload 0x00)

/-- The host actions that issue the command word `cmd`, an UPDATE's payload being zeros. -/
def issue (cmd : Word32) : List HostAction := .command cmd :: zeroPayload (decode cmd)

end Sys2Proof.Machine
end

