-- ==== Sys2Proof/Machine/Step.lean ====
section
/-! DEFINITION. One step of an instance: one command, whole (spec/20_memory.md rules R71, R72), or one reset. -/

namespace Sys2Proof.Machine

/-- One step (R71, R72): what `fetch` says is next. An idle instance keeps its state (R309). -/
def step (s : State) : Host.Outcome State Fault Refusal :=
  match fetch s with
  | .run i t => exec i t
  | .reject e t => .next (t.rejectWord e)
  | .reset t => .next t.applyReset
  | .idle => .next s
  | .stray => .refused .strayPayload

/-- The state in which the next step runs the command word whose low `nbits` bits are those of `w`: the host's next
actions are that word and, for UPDATE n, n zero bytes, and no earlier UPDATE waits for payload (log entry 2). -/
def State.withFetchWord (s : State) (nbits w : Nat) : State :=
  { s with pending := none, host := issue (BitVec.ofNat 32 (w % 2 ^ nbits)) ++ s.host }

end Sys2Proof.Machine
end

