-- ==== Sys2Proof/Machine/Assembler.lean ====
section
/-! DEFINITION. The host's side of the channels: the actions that issue a command with its payload (spec/30_encoding.md
rule R98) and the expansions of the pseudo-commands HASH.256, HASH.512, HASH.384 and UPDATE* (R102, R334, R338). -/

namespace Sys2Proof.Machine

/-- The payload bytes `data` on DIN, in message order (R98). -/
def payloads (data : List Byte) : List HostAction := data.map HostAction.payload

/-- `UPDATE n, <data>` (R102): the word with its length, then the payload. -/
def updateActions (data : List Byte) : List HostAction :=
  .command (encode (.update data.length)) :: payloads data

/-- The INIT command of a variant (R93). -/
def initOf : Variant → Instr
  | .v256 => .init256
  | .v512 => .init512
  | .v384 => .init384

/-- The protocol of R334 for a message sent in the given chunks: INIT, one UPDATE a chunk, FINALIZE. -/
def hashActions (v : Variant) (chunks : List (List Byte)) : List HostAction :=
  .command (encode (initOf v)) :: (chunks.flatMap updateActions ++ [.command (encode .finalize)])

/-- Cuts a message into at most `fuel` chunks of at most `size` bytes, in order; none when it is empty. DESIGN CHOICE:
every chunk but the last is of `size` bytes, where R102 asks only for chunks of at most that size (log entry 19). -/
def cutChunks (size : Nat) : Nat → List Byte → List (List Byte)
  | 0, _ => []
  | _ + 1, [] => []
  | fuel + 1, x :: msg => (x :: msg).take size :: cutChunks size fuel ((x :: msg).drop size)

/-- The chunks of R102: at most 2^24 - 1 bytes each. -/
def messageChunks (msg : List Byte) : List (List Byte) := cutChunks Config.maxPayload msg.length msg

/-- The pseudo-command `UPDATE* <msg>` (R102). DESIGN CHOICE: of an empty message it is no command, as R102 says of HASH;
of UPDATE* R102 does not say whether it is none or UPDATE 0 (log entry 18). -/
def updateStar (msg : List Byte) : List HostAction := (messageChunks msg).flatMap updateActions

/-- The pseudo-commands `HASH.256`, `HASH.512` and `HASH.384 <msg>` (R102). -/
def hash (v : Variant) (msg : List Byte) : List HostAction := hashActions v (messageChunks msg)

end Sys2Proof.Machine
end

