-- ==== Sys2Proof/Machine/System.lean ====
section
/-! DEFINITION. Several instances (spec/00_scope.md rule R9 `NUM_CORES`, spec/20_memory.md rule R74,
spec/60_exceptions.md rule R307): a product of independent instances that share only the constant tables. -/

namespace Sys2Proof.Machine

/-- The instances of a system; their number is `NUM_CORES`. -/
structure System where
  cores : List State
  deriving DecidableEq, Repr

/-- `NUM_CORES ≥ 1` (R9). -/
def System.wellFormed (sys : System) : Bool := decide (1 ≤ sys.cores.length)

/-- `n` instances, each after its reset. -/
def System.reset (n : Nat) : System := { cores := List.replicate n State.reset }

/-- Instance `k` takes a step and the others stay as they are (R74). Where there is no instance `k`, nothing moves. -/
def System.stepAt (k : Nat) (sys : System) : Host.Outcome System Fault Refusal :=
  match sys.cores[k]? with
  | none => .next sys
  | some s =>
    match step s with
    | .next t => .next { cores := sys.cores.set k t }
    | .fault r => .fault r
    | .refused r => .refused r

end Sys2Proof.Machine
end

