-- ==== Sys2Proof/Safety.lean ====
section
/-! DEFINITION. The terms in which claims about the CORE are stated: which phases hold a context, the invariant of an
instance, the message a context holds, and the digest of a message by the padding rule
(spec/44_finalize.md rule R263). Nothing here is used by the machine. -/

namespace Sys2Proof.Machine

/-- The phases in which UPDATE and FINALIZE run (spec/10_state.md rule R36). -/
abbrev State.Live (s : State) : Prop := s.phase = .initialized ∨ s.phase = .accumulating

/-- The length counter of the context as an integer (R45). -/
def Context.bits : Context → Nat
  | .ctx32 c => c.bits
  | .ctx64 c => c.bits

/-- The bound of the length counter: 2 to its width (R8, R221). -/
def Context.bound : Context → Nat
  | .ctx32 _ => 2 ^ 64
  | .ctx64 _ => 2 ^ 128

/-- The counter has room for `n` more payload bytes (R221). -/
abbrev State.HasRoom (s : State) (n : Nat) : Prop := s.ctx.bits + 8 * n < s.ctx.bound

/-- The event is a compression pass (R40). -/
def Event.isPass : Event → Bool
  | .compress32 _ => true
  | .compress64 _ => true
  | .response _ _ => false
  | .reset => false

/-- The compression-pass count of a piece of trace (R40, R262). -/
def passCount (events : List Event) : Nat := events.countP Event.isPass

/-- What an event puts on RSP (R99). -/
def Event.rspBytes : Event → List Byte
  | .compress32 _ => []
  | .compress64 _ => []
  | .response status data => status.code :: data
  | .reset => []

/-! ## The invariant of an instance -/

/-- `variant` selects the shape of the context (R30, R34). -/
def State.shapeMatches (s : State) : Bool :=
  match s.variant, s.ctx with
  | .v256, .ctx32 _ => true
  | .v512, .ctx64 _ => true
  | .v384, .ctx64 _ => true
  | .v256, .ctx64 _ => false
  | .v512, .ctx32 _ => false
  | .v384, .ctx32 _ => false

/-- `fault_code` is 0x00 while the phase is not Faulted, and a code that a fault can record otherwise (R37, R292). -/
def State.FaultCodeMatches (s : State) : Prop :=
  (s.phase ≠ .faulted → s.faultCode = 0x00) ∧
    (s.phase = .faulted → s.faultCode ∈ ([0x01, 0x02, 0x03, 0x04, 0x05] : List Byte))

/-- The context of an Uninitialized or Finalized instance is all zero (R46). -/
def State.ZeroWhenUnused (s : State) : Prop :=
  s.phase = .uninitialized ∨ s.phase = .finalized → s.variant = .v256 ∧ s.ctx = .ctx32 Ctx32.zero

/-- The counter counts whole bytes, and `buffer_len` is what is left of them after the blocks compressed so far
(R45, R224). -/
def Context.CounterMatches : Context → Prop
  | .ctx32 c => c.bits % 8 = 0 ∧ c.bufferLen.val = c.bits / 8 % Config.blockBytes32
  | .ctx64 c => c.bits % 8 = 0 ∧ c.bufferLen.val = c.bits / 8 % Config.blockBytes64

/-- A trace event is one the CORE can emit: a pass records what its core computes (R40), and only an OK response
carries data, a digest of 32, 48 or 64 bytes (R99, R258). -/
def Event.Sound : Event → Prop
  | .compress32 p => p.hout = Machine.compress32 p.hin p.block
  | .compress64 p => p.hout = Machine.compress64 p.hin p.block
  | .response status data => data = [] ∨ (status = .ok ∧ data.length ∈ ([32, 48, 64] : List Nat))
  | .reset => True

/-- The invariant: it holds after reset and every step keeps it. -/
structure State.Inv (s : State) : Prop where
  shape : s.shapeMatches = true
  faultCode : s.FaultCodeMatches
  zero : s.ZeroWhenUnused
  counter : s.ctx.CounterMatches
  /-- What went out on RSP is what the trace's responses say (R99). -/
  rsp : s.rsp = s.trace.flatMap Event.rspBytes
  trace : ∀ e ∈ s.trace, e.Sound
  /-- An UPDATE that waits has a length its word could carry (R94). -/
  pending : ∀ n, s.pending = some n → n < 2 ^ Config.lenBits

/-! ## Messages and digests -/

/-- The whole blocks of `bs` bytes at the front of a byte sequence, in order (R67). -/
def wholeBlocks (bs : Nat) (msg : List Byte) : List (Vector Byte bs) :=
  (List.range (msg.length / bs)).map fun k => Vector.ofFn fun i => msg.getD (k * bs + i.val) 0

/-- The padded message `M ‖ 0x80 ‖ 0x00^z ‖ bytes_BE(8L, LF)` of R263, with the least `z` that fills the last block. -/
def paddedMessage (bs lf : Nat) (msg : List Byte) : List Byte :=
  msg ++ 0x80 :: (List.replicate ((bs - (msg.length + 1 + lf) % bs) % bs) 0x00 ++
    bytesBE (BitVec.ofNat (8 * lf) (8 * msg.length)))

/-- The chaining value after compressing `blocks` from `iv`. -/
def chainBlocks {w bs : Nat} (compress : Vector (BitVec w) 8 → Vector Byte bs → Vector (BitVec w) 8)
    (iv : Vector (BitVec w) 8) (blocks : List (Vector Byte bs)) : Vector (BitVec w) 8 :=
  blocks.foldl compress iv

/-- The digest of a message by R263: the padded message, block by block, then serialization and truncation
(R257, R258). -/
def messageDigest (v : Variant) (msg : List Byte) : List Byte :=
  match v with
  | .v256 => serialize (chainBlocks compress32 iv256
      (wholeBlocks Config.blockBytes32 (paddedMessage Config.blockBytes32 Config.lengthBytes32 msg)))
  | .v512 => serialize (chainBlocks compress64 iv512
      (wholeBlocks Config.blockBytes64 (paddedMessage Config.blockBytes64 Config.lengthBytes64 msg)))
  | .v384 => (serialize (chainBlocks compress64 iv384
      (wholeBlocks Config.blockBytes64 (paddedMessage Config.blockBytes64 Config.lengthBytes64 msg)))).take 48

/-- The bit-length counter's bound in bits (R8, R221). -/
def counterBound : Variant → Nat
  | .v256 => 2 ^ 64
  | .v512 => 2 ^ 128
  | .v384 => 2 ^ 128

/-- `BS`, the block size of a variant (R18). -/
def blockSize : Variant → Nat
  | .v256 => Config.blockBytes32
  | .v512 => Config.blockBytes64
  | .v384 => Config.blockBytes64

/-- `LF`, the length field size of a variant (R18). -/
def lengthFieldSize : Variant → Nat
  | .v256 => Config.lengthBytes32
  | .v512 => Config.lengthBytes64
  | .v384 => Config.lengthBytes64

/-- The stream state after absorbing exactly `msg` from `iv`: its whole blocks are compressed, and the rest stands in
the buffer's valid bytes (R67, R224). Nothing is said of the stale bytes (R41). -/
structure Stream.Absorbed {w bs : Nat} (compress : Vector (BitVec w) 8 → Vector Byte bs → Vector (BitVec w) 8)
    (iv : Vector (BitVec w) 8) (msg : List Byte) (st : Stream w bs) : Prop where
  chain : st.H = chainBlocks compress iv (wholeBlocks bs msg)
  length : st.bufferLen.val = msg.length % bs
  tail : ∀ i : Fin bs, i.val < st.bufferLen.val → st.buf[i] = msg.getD (msg.length / bs * bs + i.val) 0

/-- The instance is live and its context holds exactly the message `msg`, hashed as `v` (R45, R67). -/
def State.HoldsMessage (s : State) (v : Variant) (msg : List Byte) : Prop :=
  s.Live ∧ s.variant = v ∧
    match v with
    | .v256 => ∃ c, s.ctx = .ctx32 c ∧ c.toStream.Absorbed compress32 iv256 msg ∧ c.bits = 8 * msg.length
    | .v512 => ∃ c, s.ctx = .ctx64 c ∧ c.toStream.Absorbed compress64 iv512 msg ∧ c.bits = 8 * msg.length
    | .v384 => ∃ c, s.ctx = .ctx64 c ∧ c.toStream.Absorbed compress64 iv384 msg ∧ c.bits = 8 * msg.length

/-- Sends one UPDATE a chunk, in order, to an instance (R223). -/
def feed : List (List Byte) → State → Host.Outcome State Fault Refusal
  | [], s => .next s
  | data :: chunks, s =>
    match exec (.update data.length) { s with host := payloads data } with
    | .next t => feed chunks t
    | .fault r => .fault r
    | .refused r => .refused r

end Sys2Proof.Machine
end

