-- ==== Sys2Proof/Certificates/Slice0/Obligations.lean ====
section
/-! DEFINITION. The statements for the provers. Each says what a rule of spec/ says the machine does; a statement that
rests on a rule the spec marks `[derived]`, or on a choice of the model, says so in its docstring. -/

open Sys2Proof Sys2Proof.Machine

/-! ## Command words -/

/-- A few words, written out from 30_encoding.md section 2 and 3, decode to the command they stand for. -/
def Obligations.WrittenWordsDecode : Prop :=
  decode 0x01000000 = .command .init256 ∧ decode 0x01000001 = .command .init512 ∧
  decode 0x01000002 = .command .init384 ∧ decode 0x01000003 = .illegal .illegalVariant ∧
  decode 0x01800000 = .illegal .illegalCommand ∧ decode 0x02000000 = .command (.update 0) ∧
  decode 0x02000003 = .command (.update 3) ∧ decode 0x02FFFFFF = .command (.update 16777215) ∧
  decode 0x03000000 = .command .finalize ∧ decode 0x03000001 = .illegal .illegalCommand ∧
  decode 0x00000000 = .illegal .illegalCommand ∧ decode 0x04000000 = .illegal .illegalCommand

/-- R96: what each of the 2^32 words decodes to, by its value: four words name the INIT forms and FINALIZE, 2^24 words
name UPDATE, and every other word is illegal, with the code R96 gives it. -/
def Obligations.CommandMapIsExact : Prop :=
  ∀ cmd : Word32,
    (decode cmd = .command .init256 ↔ cmd.toNat = 0x01000000) ∧
    (decode cmd = .command .init512 ↔ cmd.toNat = 0x01000001) ∧
    (decode cmd = .command .init384 ↔ cmd.toNat = 0x01000002) ∧
    (∀ n, decode cmd = .command (.update n) ↔ cmd.toNat = 0x02000000 + n ∧ n < 2 ^ 24) ∧
    (decode cmd = .command .finalize ↔ cmd.toNat = 0x03000000) ∧
    (decode cmd = .illegal .illegalVariant ↔ 0x01000003 ≤ cmd.toNat ∧ cmd.toNat ≤ 0x010000FF) ∧
    (decode cmd = .illegal .illegalCommand ↔
      cmd.toNat < 0x01000000 ∨ (0x01000100 ≤ cmd.toNat ∧ cmd.toNat < 0x02000000) ∨ 0x03000001 ≤ cmd.toNat)

/-- Decoding an encoded well-formed command gives it back, UPDATE with every length its field admits. -/
def Obligations.DecodeOfEncode : Prop :=
  ∀ i : Instr, i.wellFormed = true → decode (encode i) = .command i

/-- A word that decodes to a command decodes to a well-formed one, whose encoding is that word: each command has one
word. -/
def Obligations.EncodeOfDecode : Prop :=
  ∀ (cmd : Word32) (i : Instr), decode cmd = .command i → i.wellFormed = true ∧ encode i = cmd

/-! ## One step -/

/-- When no UPDATE waits and the host's next action is a command word that decodes to `i`, a step is `exec i` at the
state with that word taken. -/
def Obligations.StepRunsDecodedCommand : Prop :=
  ∀ (s : State) (cmd : Word32) (rest : List HostAction) (i : Instr),
    s.pending = none → s.host = .command cmd :: rest → decode cmd = .command i →
    step s = exec i { s with host := rest }

/-- When an UPDATE waits for its payload, a step resumes it: it is `exec (update n)` at the state in which no UPDATE
waits. The waiting register is the model's (log entry 3). -/
def Obligations.StepResumesWaitingUpdate : Prop :=
  ∀ (s : State) (n : Nat), s.pending = some n → step s = exec (.update n) { s with pending := none }

/-- R309: an instance with no command to take and none in progress keeps its whole state. -/
def Obligations.IdleKeepsState : Prop :=
  ∀ s : State, s.pending = none → s.host = [] → step s = .next s

/-- R298: in every phase but Faulted, a word with a reserved opcode, an INIT word with `cmd[23:8]` not 0 or a FINALIZE
word with `cmd[23:0]` not 0 faults with ERR_ILLEGAL_COMMAND: phase Faulted, the code recorded and answered, and
nothing else changed but the word taken. -/
def Obligations.IllegalCommandWordFaults : Prop :=
  ∀ (s : State) (cmd : Word32) (rest : List HostAction),
    s.pending = none → s.host = .command cmd :: rest → s.phase ≠ .faulted →
    ((cmd.toNat / 2 ^ 24 = 0x00 ∨ 0x04 ≤ cmd.toNat / 2 ^ 24) ∨
      (cmd.toNat / 2 ^ 24 = 0x01 ∧ cmd.toNat / 2 ^ 8 % 2 ^ 16 ≠ 0) ∨
      (cmd.toNat / 2 ^ 24 = 0x03 ∧ cmd.toNat % 2 ^ 24 ≠ 0)) →
    step s = .next { s with
      host := rest
      phase := .faulted
      faultCode := 0x03
      trace := s.trace ++ [.response .errIllegalCommand []]
      rsp := s.rsp ++ [0x03] }

/-- R299: in every phase but Faulted, an INIT word with `cmd[23:8]` = 0 and a variant code 0x03 to 0xFF faults with
ERR_ILLEGAL_VARIANT, in the same way. -/
def Obligations.IllegalVariantWordFaults : Prop :=
  ∀ (s : State) (cmd : Word32) (rest : List HostAction),
    s.pending = none → s.host = .command cmd :: rest → s.phase ≠ .faulted →
    cmd.toNat / 2 ^ 24 = 0x01 → cmd.toNat / 2 ^ 8 % 2 ^ 16 = 0 → 0x03 ≤ cmd.toNat % 2 ^ 8 →
    step s = .next { s with
      host := rest
      phase := .faulted
      faultCode := 0x04
      trace := s.trace ++ [.response .errIllegalVariant []]
      rsp := s.rsp ++ [0x04] }

/-! ## The host's payload -/

/-- R336, as the model takes it: an UPDATE whose payload is not all there takes a step in which it starts to wait and
nothing else happens, and a waiting UPDATE to which the host delivers nothing more steps to the same state, with no
response. The waiting register is the model's (log entry 3); that an UPDATE which will fault, or is answered ERR_FAULTED,
gives no answer before its last byte either is the model's reading of R336 (log entry 12). -/
def Obligations.ShortPayloadWaits : Prop :=
  ∀ (s : State) (n : Nat) (data : List Byte), data.length < n → s.host = payloads data →
    exec (.update n) s = .next { s with pending := some n } ∧ (s.pending = some n → step s = .next s)

/-- What the model answers a host that breaks its payload duties (log entry 4): a command word while an UPDATE waits
stops the run by a fault, and so does one cut short by a reset; a payload byte that no UPDATE waits for is refused, and so
are bytes beyond the payload of a command that a reset cuts short, or with one that takes none. -/
def Obligations.PayloadDutyBreachStops : Prop :=
  (∀ (s : State) (n : Nat) (data : List Byte) (a : HostAction) (rest : List HostAction), data.length < n →
    ((∃ cmd, a = .command cmd) ∨ ∃ cmd d, a = .resetDuring cmd d) → s.host = payloads data ++ a :: rest →
    exec (.update n) s = .fault .commandWhileWaiting) ∧
  (∀ (s : State) (x : Byte) (rest : List HostAction), s.pending = none → s.host = .payload x :: rest →
    step s = .refused .strayPayload) ∧
  ∀ (s : State) (cmd : Word32) (data : List Byte) (rest : List HostAction),
    s.pending = none → s.host = .resetDuring cmd data :: rest →
    ((∃ n, decode cmd = .command (.update n) ∧ n < data.length) ∨
      ((∀ n, decode cmd ≠ .command (.update n)) ∧ data ≠ [])) →
    step s = .refused .strayPayload

/-! ## Reset -/

/-- R47: the values of every piece of state after reset, in `State.reset` and after a reset that is asserted while the
instance is in any state. The trace keeps its events and gains one Reset event. The contents of the trace before the
first reset, of RSP and of the host's actions are the model's choice (log entry 7), and so is the counter of free values;
nothing is said of them here. -/
def Obligations.ResetStateValues : Prop :=
  (∀ t : State, (t = State.reset ∨ ∃ s rest, s.pending = none ∧ s.host = .reset :: rest ∧ step s = .next t) →
    t.phase = .uninitialized ∧ t.faultCode = 0x00 ∧ t.variant = .v256 ∧
    (∃ c : Ctx32, t.ctx = .ctx32 c ∧ (∀ i : Fin 8, c.H[i] = 0) ∧ c.bitLength = 0 ∧
      (∀ i : Fin 64, c.buf[i] = 0x00) ∧ c.bufferLen.val = 0) ∧
    t.trace.getLast? = some .reset) ∧
  ∀ (s : State) (rest : List HostAction), s.pending = none → s.host = .reset :: rest →
    ∃ t, step s = .next t ∧ t.trace = s.trace ++ [.reset]

/-- R330, R332: a reset gives the reset state with one Reset event appended to the trace, whether it comes between
commands, after a command was taken and before its response, or while an UPDATE waits for its payload; the abandoned
command has no response and no other effect. That the bytes `left`, which stand after the reset, at most as many as the
UPDATE was owed, are the remaining payload which R330 discards, and when a reset can land, is the model's inference
(log entry 5); that the discarding ends at the first other action (log entry 20), and that RSP, the host's later actions
and the counter of free values stay (log entry 7), are its choices. -/
def Obligations.ResetFromEveryState : Prop :=
  ∀ (s : State) (rest : List HostAction),
    ((s.pending = none ∧ s.host = .reset :: rest) ∨
      (∃ cmd, s.pending = none ∧ (∀ n, decode cmd ≠ .command (.update n)) ∧ s.host = .resetDuring cmd [] :: rest) ∨
      ∃ (n : Nat) (data left : List Byte), data.length + left.length ≤ n ∧
        (data.length + left.length = n ∨ ∀ x, rest.head? ≠ some (.payload x)) ∧
        ((∃ cmd, s.pending = none ∧ decode cmd = .command (.update n) ∧
            (s.host = .resetDuring cmd data :: (payloads left ++ rest) ∨
              (data.length < n ∧
                s.host = .command cmd :: (payloads data ++ .reset :: (payloads left ++ rest))))) ∨
          (s.pending = some n ∧ data.length < n ∧
            s.host = payloads data ++ .reset :: (payloads left ++ rest)))) →
    step s = .next { State.reset with
      trace := s.trace ++ [.reset], rsp := s.rsp, host := rest, draws := s.draws }

/-! ## INIT -/

/-- R213: INIT.256, in every phase but Faulted. In phase Faulted it is answered ERR_FAULTED and has no effect; an INIT
word with a non-zero reserved field is no INIT. The values of H are R210's, which the spec marks as taken from FIPS 180-4
(log entry 15). -/
def Obligations.Init256StartsContext : Prop :=
  decode 0x01000000 = .command .init256 ∧
  (∀ cmd : Word32, cmd.toNat / 2 ^ 24 = 1 → cmd.toNat / 2 ^ 8 % 2 ^ 16 ≠ 0 → decode cmd = .illegal .illegalCommand) ∧
  ∀ s : State,
    (s.phase ≠ .faulted → exec .init256 s = .next { s with
      variant := .v256
      ctx := .ctx32
        { H := #v[0x6a09e667, 0xbb67ae85, 0x3c6ef372, 0xa54ff53a, 0x510e527f, 0x9b05688c, 0x1f83d9ab, 0x5be0cd19]
          buf := Vector.replicate 64 0x00
          bufferLen := 0
          bitLength := 0 }
      phase := .initialized
      trace := s.trace ++ [.response .ok []]
      rsp := s.rsp ++ [0x00] }) ∧
    (s.phase = .faulted → exec .init256 s = .next { s with
      trace := s.trace ++ [.response .errFaulted []], rsp := s.rsp ++ [0x06] })

/-- R214: INIT.512, in every phase but Faulted; otherwise as R213. The values of H are R211's (log entry 15). -/
def Obligations.Init512StartsContext : Prop :=
  decode 0x01000001 = .command .init512 ∧
  (∀ cmd : Word32, cmd.toNat / 2 ^ 24 = 1 → cmd.toNat / 2 ^ 8 % 2 ^ 16 ≠ 0 → decode cmd = .illegal .illegalCommand) ∧
  ∀ s : State,
    (s.phase ≠ .faulted → exec .init512 s = .next { s with
      variant := .v512
      ctx := .ctx64
        { H := #v[0x6a09e667f3bcc908, 0xbb67ae8584caa73b, 0x3c6ef372fe94f82b, 0xa54ff53a5f1d36f1,
                  0x510e527fade682d1, 0x9b05688c2b3e6c1f, 0x1f83d9abfb41bd6b, 0x5be0cd19137e2179]
          buf := Vector.replicate 128 0x00
          bufferLen := 0
          bitLengthHi := 0
          bitLengthLo := 0 }
      phase := .initialized
      trace := s.trace ++ [.response .ok []]
      rsp := s.rsp ++ [0x00] }) ∧
    (s.phase = .faulted → exec .init512 s = .next { s with
      trace := s.trace ++ [.response .errFaulted []], rsp := s.rsp ++ [0x06] })

/-- R215: INIT.384, as INIT.512 with its own variant and IV-384, R212's values (log entry 15). -/
def Obligations.Init384StartsContext : Prop :=
  decode 0x01000002 = .command .init384 ∧
  (∀ cmd : Word32, cmd.toNat / 2 ^ 24 = 1 → cmd.toNat / 2 ^ 8 % 2 ^ 16 ≠ 0 → decode cmd = .illegal .illegalCommand) ∧
  ∀ s : State,
    (s.phase ≠ .faulted → exec .init384 s = .next { s with
      variant := .v384
      ctx := .ctx64
        { H := #v[0xcbbb9d5dc1059ed8, 0x629a292a367cd507, 0x9159015a3070dd17, 0x152fecd8f70e5939,
                  0x67332667ffc00b31, 0x8eb44a8768581511, 0xdb0c2e0d64f98fa7, 0x47b5481dbefa4fa4]
          buf := Vector.replicate 128 0x00
          bufferLen := 0
          bitLengthHi := 0
          bitLengthLo := 0 }
      phase := .initialized
      trace := s.trace ++ [.response .ok []]
      rsp := s.rsp ++ [0x00] }) ∧
    (s.phase = .faulted → exec .init384 s = .next { s with
      trace := s.trace ++ [.response .errFaulted []], rsp := s.rsp ++ [0x06] })

/-! ## UPDATE -/

/-- R217, R218: UPDATE of one byte, on each shape. Short of a full block the byte goes into the buffer at `buffer_len`
and every other byte of the buffer stays; the byte that fills the block starts one compression pass on the filled
buffer, with its Compress event, and leaves the buffer empty. Nothing is said of the emptied buffer's bytes. -/
def Obligations.UpdateAbsorbsByte : Prop :=
  ∀ (s : State) (x : Byte) (rest : List HostAction), s.Live → s.host = .payload x :: rest → s.HasRoom 1 →
    (∀ c : Ctx32, s.ctx = .ctx32 c →
      (∀ h : c.bufferLen.val + 1 < 64, exec (.update 1) s = .next { s with
        host := rest
        phase := .accumulating
        ctx := .ctx32 { c with
          buf := c.buf.set c.bufferLen.val x, bufferLen := ⟨c.bufferLen.val + 1, h⟩, bitLength := c.bitLength + 8 }
        trace := s.trace ++ [.response .ok []]
        rsp := s.rsp ++ [0x00] }) ∧
      (c.bufferLen.val + 1 = 64 → ∃ (t : State) (c' : Ctx32), exec (.update 1) s = .next t ∧ t.ctx = .ctx32 c' ∧
        c'.H = compress32 c.H (c.buf.set c.bufferLen.val x) ∧ c'.bufferLen.val = 0 ∧
        c'.bitLength = c.bitLength + 8 ∧
        t.trace = s.trace ++ [.compress32 ⟨c.H, c.buf.set c.bufferLen.val x, c'.H⟩, .response .ok []] ∧
        t.rsp = s.rsp ++ [0x00] ∧ t.phase = .accumulating ∧ t.host = rest ∧ t.variant = s.variant ∧
        t.faultCode = s.faultCode ∧ t.pending = s.pending)) ∧
    (∀ c : Ctx64, s.ctx = .ctx64 c →
      (∀ h : c.bufferLen.val + 1 < 128, ∃ hi lo : Word64,
        hi.toNat * 2 ^ 64 + lo.toNat = c.bitLengthHi.toNat * 2 ^ 64 + c.bitLengthLo.toNat + 8 ∧
        exec (.update 1) s = .next { s with
          host := rest
          phase := .accumulating
          ctx := .ctx64 { c with
            buf := c.buf.set c.bufferLen.val x, bufferLen := ⟨c.bufferLen.val + 1, h⟩
            bitLengthHi := hi, bitLengthLo := lo }
          trace := s.trace ++ [.response .ok []]
          rsp := s.rsp ++ [0x00] }) ∧
      (c.bufferLen.val + 1 = 128 → ∃ (t : State) (c' : Ctx64), exec (.update 1) s = .next t ∧ t.ctx = .ctx64 c' ∧
        c'.H = compress64 c.H (c.buf.set c.bufferLen.val x) ∧ c'.bufferLen.val = 0 ∧
        c'.bitLengthHi.toNat * 2 ^ 64 + c'.bitLengthLo.toNat =
          c.bitLengthHi.toNat * 2 ^ 64 + c.bitLengthLo.toNat + 8 ∧
        t.trace = s.trace ++ [.compress64 ⟨c.H, c.buf.set c.bufferLen.val x, c'.H⟩, .response .ok []] ∧
        t.rsp = s.rsp ++ [0x00] ∧ t.phase = .accumulating ∧ t.host = rest ∧ t.variant = s.variant ∧
        t.faultCode = s.faultCode ∧ t.pending = s.pending))

/-- R219, R220, R222: UPDATE of any payload completes in phases Initialized and Accumulating when the counter has room.
It counts 8 bits a byte, with the carry from the low to the high word of the 128-bit counter, its trace gains passes of
the matching core and one OK response, the phase becomes Accumulating, and nothing else changes but the context. -/
def Obligations.UpdateCompletesAndCounts : Prop :=
  ∀ (s : State) (data : List Byte) (rest : List HostAction),
    s.Live → data.length < 2 ^ 24 → s.host = payloads data ++ rest → s.HasRoom data.length →
    ∃ (t : State) (passes : List Event), exec (.update data.length) s = .next t ∧
      t.trace = s.trace ++ passes ++ [.response .ok []] ∧ t.rsp = s.rsp ++ [0x00] ∧ t.phase = .accumulating ∧
      t.host = rest ∧ t.variant = s.variant ∧ t.faultCode = s.faultCode ∧ t.pending = s.pending ∧
      (∀ c : Ctx32, s.ctx = .ctx32 c → (∀ e ∈ passes, ∃ p, e = .compress32 p) ∧
        ∃ c', t.ctx = .ctx32 c' ∧ c'.bitLength.toNat = c.bitLength.toNat + 8 * data.length) ∧
      (∀ c : Ctx64, s.ctx = .ctx64 c → (∀ e ∈ passes, ∃ p, e = .compress64 p) ∧
        ∃ c', t.ctx = .ctx64 c' ∧
          c'.bitLengthLo.toNat = (c.bitLengthLo.toNat + 8 * data.length) % 2 ^ 64 ∧
          c'.bitLengthHi.toNat = c.bitLengthHi.toNat +
            if c.bitLengthLo.toNat + 8 * data.length ≥ 2 ^ 64 then 1 else 0)

/-- R216, R217 (their consequence): an UPDATE that does not fill the block writes its bytes, in order, behind the valid
ones, leaves every other byte of the buffer and the chaining value as they were, and starts no pass. -/
def Obligations.UpdateWithinBlock : Prop :=
  ∀ (s : State) (data : List Byte) (rest : List HostAction),
    s.Live → data.length < 2 ^ 24 → s.host = payloads data ++ rest → s.HasRoom data.length →
    (∀ c : Ctx32, s.ctx = .ctx32 c → c.bufferLen.val + data.length < 64 →
      ∃ (t : State) (c' : Ctx32), exec (.update data.length) s = .next t ∧ t.ctx = .ctx32 c' ∧ c'.H = c.H ∧
        c'.bufferLen.val = c.bufferLen.val + data.length ∧ t.trace = s.trace ++ [.response .ok []] ∧
        ∀ i : Fin 64, c'.buf[i] =
          if c.bufferLen.val ≤ i.val ∧ i.val < c.bufferLen.val + data.length
          then data.getD (i.val - c.bufferLen.val) 0 else c.buf[i]) ∧
    (∀ c : Ctx64, s.ctx = .ctx64 c → c.bufferLen.val + data.length < 128 →
      ∃ (t : State) (c' : Ctx64), exec (.update data.length) s = .next t ∧ t.ctx = .ctx64 c' ∧ c'.H = c.H ∧
        c'.bufferLen.val = c.bufferLen.val + data.length ∧ t.trace = s.trace ++ [.response .ok []] ∧
        ∀ i : Fin 128, c'.buf[i] =
          if c.bufferLen.val ≤ i.val ∧ i.val < c.bufferLen.val + data.length
          then data.getD (i.val - c.bufferLen.val) 0 else c.buf[i])

/-- R224 (derived in the spec): an UPDATE of n bytes that starts with `buffer_len` = b emits ⌊(b + n) / BS⌋ Compress
events and ends with `buffer_len` = (b + n) mod BS. -/
def Obligations.UpdatePassCount : Prop :=
  ∀ (s : State) (data : List Byte) (rest : List HostAction),
    s.Live → data.length < 2 ^ 24 → s.host = payloads data ++ rest → s.HasRoom data.length →
    ∃ (t : State) (passes : List Event), exec (.update data.length) s = .next t ∧
      t.trace = s.trace ++ passes ++ [.response .ok []] ∧
      (∀ c : Ctx32, s.ctx = .ctx32 c → passCount passes = (c.bufferLen.val + data.length) / 64 ∧
        ∃ c', t.ctx = .ctx32 c' ∧ c'.bufferLen.val = (c.bufferLen.val + data.length) % 64) ∧
      (∀ c : Ctx64, s.ctx = .ctx64 c → passCount passes = (c.bufferLen.val + data.length) / 128 ∧
        ∃ c', t.ctx = .ctx64 c' ∧ c'.bufferLen.val = (c.bufferLen.val + data.length) % 128)

/-- R225 (derived in the spec): UPDATE 0 absorbs nothing; its only effects are the phase and the OK response. -/
def Obligations.EmptyUpdateOnlyMovesPhase : Prop :=
  ∀ s : State, s.Live → exec (.update 0) s = .next { s with
    phase := .accumulating, trace := s.trace ++ [.response .ok []], rsp := s.rsp ++ [0x00] }

/-- R223 (derived in the spec): chunking invariance. Feeding a byte sequence in any split of one or more chunks reaches
the state that one UPDATE of the whole sequence reaches: the same context, counter, phase and control registers, and the
same sequence of Compress events. R223 has of the buffer the bytes below `buffer_len` only, and R41 leaves the others
undefined: that those agree too is the model's choice, since its free value depends on nothing but the number of the pass
and the byte's place (log entry 6). -/
def Obligations.ChunkingInvariance : Prop :=
  ∀ (s : State) (chunks : List (List Byte)),
    chunks ≠ [] → s.Live → chunks.flatten.length < 2 ^ 24 → s.HasRoom chunks.flatten.length →
    ∃ t t' : State, feed chunks s = .next t ∧
      exec (.update chunks.flatten.length) { s with host := payloads chunks.flatten } = .next t' ∧
      t.ctx = t'.ctx ∧ t.phase = t'.phase ∧ t.variant = t'.variant ∧ t.faultCode = t'.faultCode ∧
      t.host = t'.host ∧ t.pending = t'.pending ∧
      t.trace.filter Event.isPass = t'.trace.filter Event.isPass

/-- R188, R216 (R215's corner case): UPDATE treats a V384 context exactly as the same context of V512. That the buffer
bytes at and beyond `buffer_len`, which R41 leaves undefined, agree too is the model's choice (log entry 6). -/
def Obligations.UpdateIgnoresTruncatedVariant : Prop :=
  ∀ (s : State) (c : Ctx64) (data : List Byte) (rest : List HostAction),
    s.ctx = .ctx64 c → s.Live → data.length < 2 ^ 24 → s.host = payloads data ++ rest → s.HasRoom data.length →
    ∃ t : State, exec (.update data.length) { s with variant := .v512 } = .next { t with variant := .v512 } ∧
      exec (.update data.length) { s with variant := .v384 } = .next { t with variant := .v384 }

/-! ## FINALIZE -/

/-- R251, R253, R255 to R257, R259, R260: FINALIZE of a V256 context with at most 55 buffered bytes. One block: the
buffered bytes, 0x80, zeros, the 64-bit length; one pass on it; the digest is its eight words, most significant byte
first; the context is zeroized, the phase is Finalized, and nothing else changes. -/
def Obligations.Finalize32OneBlock : Prop :=
  ∀ (s : State) (c : Ctx32), s.Live → s.variant = .v256 → s.ctx = .ctx32 c → c.bufferLen.val < 56 →
    ∃ (B : Vector Byte 64) (D : List Byte),
      (∀ i : Fin 64, i.val < c.bufferLen.val → B[i] = c.buf[i]) ∧
      B[c.bufferLen] = 0x80 ∧
      (∀ i : Fin 64, c.bufferLen.val < i.val → i.val < 56 → B[i] = 0x00) ∧
      (∀ i : Fin 64, 56 ≤ i.val → B[i].toNat = c.bitLength.toNat / 2 ^ (8 * (63 - i.val)) % 2 ^ 8) ∧
      D.length = 32 ∧
      (∀ (k : Fin 8) (j : Fin 4),
        (D.getD (4 * k.val + j.val) 0).toNat = (compress32 c.H B)[k].toNat / 2 ^ (8 * (3 - j.val)) % 2 ^ 8) ∧
      exec .finalize s = .next { s with
        phase := .finalized
        variant := .v256
        ctx := .ctx32
          { H := Vector.replicate 8 0, buf := Vector.replicate 64 0x00, bufferLen := 0, bitLength := 0 }
        trace := s.trace ++ [.compress32 ⟨c.H, B, compress32 c.H B⟩, .response .ok D]
        rsp := s.rsp ++ 0x00 :: D }

/-- R251 to R253, R255 to R257, R259, R260: FINALIZE of a V256 context with 56 to 63 buffered bytes. Two blocks: the
buffered bytes, 0x80 and zeros to the end; then zeros and the 64-bit length. -/
def Obligations.Finalize32TwoBlocks : Prop :=
  ∀ (s : State) (c : Ctx32), s.Live → s.variant = .v256 → s.ctx = .ctx32 c → 56 ≤ c.bufferLen.val →
    ∃ (B B' : Vector Byte 64) (h h' : Vector Word32 8) (D : List Byte),
      (∀ i : Fin 64, i.val < c.bufferLen.val → B[i] = c.buf[i]) ∧
      B[c.bufferLen] = 0x80 ∧
      (∀ i : Fin 64, c.bufferLen.val < i.val → B[i] = 0x00) ∧
      h = compress32 c.H B ∧
      (∀ i : Fin 64, i.val < 56 → B'[i] = 0x00) ∧
      (∀ i : Fin 64, 56 ≤ i.val → B'[i].toNat = c.bitLength.toNat / 2 ^ (8 * (63 - i.val)) % 2 ^ 8) ∧
      h' = compress32 h B' ∧
      D.length = 32 ∧
      (∀ (k : Fin 8) (j : Fin 4),
        (D.getD (4 * k.val + j.val) 0).toNat = h'[k].toNat / 2 ^ (8 * (3 - j.val)) % 2 ^ 8) ∧
      exec .finalize s = .next { s with
        phase := .finalized
        variant := .v256
        ctx := .ctx32
          { H := Vector.replicate 8 0, buf := Vector.replicate 64 0x00, bufferLen := 0, bitLength := 0 }
        trace := s.trace ++ [.compress32 ⟨c.H, B, h⟩, .compress32 ⟨h, B', h'⟩, .response .ok D]
        rsp := s.rsp ++ 0x00 :: D }

/-- R251, R254 to R260: FINALIZE of a V512 or V384 context with at most 111 buffered bytes. One block: the buffered
bytes, 0x80, zeros, the high and the low word of the length; the digest is the eight words of V512, or their first 48
bytes for V384. -/
def Obligations.Finalize64OneBlock : Prop :=
  ∀ (s : State) (c : Ctx64), s.Live → s.variant ≠ .v256 → s.ctx = .ctx64 c → c.bufferLen.val < 112 →
    ∃ (B : Vector Byte 128) (D : List Byte),
      (∀ i : Fin 128, i.val < c.bufferLen.val → B[i] = c.buf[i]) ∧
      B[c.bufferLen] = 0x80 ∧
      (∀ i : Fin 128, c.bufferLen.val < i.val → i.val < 112 → B[i] = 0x00) ∧
      (∀ i : Fin 128, 112 ≤ i.val → i.val < 120 →
        B[i].toNat = c.bitLengthHi.toNat / 2 ^ (8 * (119 - i.val)) % 2 ^ 8) ∧
      (∀ i : Fin 128, 120 ≤ i.val → B[i].toNat = c.bitLengthLo.toNat / 2 ^ (8 * (127 - i.val)) % 2 ^ 8) ∧
      D.length = (if s.variant = .v384 then 48 else 64) ∧
      (∀ (k : Fin 8) (j : Fin 8), 8 * k.val + j.val < D.length →
        (D.getD (8 * k.val + j.val) 0).toNat = (compress64 c.H B)[k].toNat / 2 ^ (8 * (7 - j.val)) % 2 ^ 8) ∧
      exec .finalize s = .next { s with
        phase := .finalized
        variant := .v256
        ctx := .ctx32
          { H := Vector.replicate 8 0, buf := Vector.replicate 64 0x00, bufferLen := 0, bitLength := 0 }
        trace := s.trace ++ [.compress64 ⟨c.H, B, compress64 c.H B⟩, .response .ok D]
        rsp := s.rsp ++ 0x00 :: D }

/-- R251, R252, R254 to R260: FINALIZE of a V512 or V384 context with 112 to 127 buffered bytes, in two blocks. -/
def Obligations.Finalize64TwoBlocks : Prop :=
  ∀ (s : State) (c : Ctx64), s.Live → s.variant ≠ .v256 → s.ctx = .ctx64 c → 112 ≤ c.bufferLen.val →
    ∃ (B B' : Vector Byte 128) (h h' : Vector Word64 8) (D : List Byte),
      (∀ i : Fin 128, i.val < c.bufferLen.val → B[i] = c.buf[i]) ∧
      B[c.bufferLen] = 0x80 ∧
      (∀ i : Fin 128, c.bufferLen.val < i.val → B[i] = 0x00) ∧
      h = compress64 c.H B ∧
      (∀ i : Fin 128, i.val < 112 → B'[i] = 0x00) ∧
      (∀ i : Fin 128, 112 ≤ i.val → i.val < 120 →
        B'[i].toNat = c.bitLengthHi.toNat / 2 ^ (8 * (119 - i.val)) % 2 ^ 8) ∧
      (∀ i : Fin 128, 120 ≤ i.val → B'[i].toNat = c.bitLengthLo.toNat / 2 ^ (8 * (127 - i.val)) % 2 ^ 8) ∧
      h' = compress64 h B' ∧
      D.length = (if s.variant = .v384 then 48 else 64) ∧
      (∀ (k : Fin 8) (j : Fin 8), 8 * k.val + j.val < D.length →
        (D.getD (8 * k.val + j.val) 0).toNat = h'[k].toNat / 2 ^ (8 * (7 - j.val)) % 2 ^ 8) ∧
      exec .finalize s = .next { s with
        phase := .finalized
        variant := .v256
        ctx := .ctx32
          { H := Vector.replicate 8 0, buf := Vector.replicate 64 0x00, bufferLen := 0, bitLength := 0 }
        trace := s.trace ++ [.compress64 ⟨c.H, B, h⟩, .compress64 ⟨h, B', h'⟩, .response .ok D]
        rsp := s.rsp ++ 0x00 :: D }

/-- R259, with the digest lengths of R258 and the phase of R260: every live FINALIZE answers OK with a digest of the
length its variant says and leaves every field of the context zero, `variant` V256 and the phase Finalized; `fault_code`
stays. The digest is kept nowhere but in what has gone out, RSP and the trace. Nothing is assumed of the context: the
lengths are those of a shape that matches the variant. -/
def Obligations.FinalizeZeroizes : Prop :=
  ∀ s : State, s.Live → ∃ (t : State) (passes : List Event) (D : List Byte), exec .finalize s = .next t ∧
    (∃ c : Ctx32, t.ctx = .ctx32 c ∧ (∀ i : Fin 8, c.H[i] = 0) ∧ c.bitLength = 0 ∧ (∀ i : Fin 64, c.buf[i] = 0x00) ∧
      c.bufferLen.val = 0) ∧
    t.variant = .v256 ∧ t.phase = .finalized ∧ t.faultCode = s.faultCode ∧ t.host = s.host ∧ t.pending = s.pending ∧
    t.trace = s.trace ++ passes ++ [.response .ok D] ∧ (∀ e ∈ passes, e.isPass = true) ∧ t.rsp = s.rsp ++ 0x00 :: D ∧
    (s.shapeMatches = true → D.length = (if s.variant = .v256 then 32 else if s.variant = .v512 then 64 else 48))

/-! ## Faults -/

/-- R292: the code of each status. -/
def Obligations.StatusCodes : Prop :=
  Status.ok.code = 0x00 ∧ Status.errUninitialized.code = 0x01 ∧ Status.errFinalized.code = 0x02 ∧
  Status.errIllegalCommand.code = 0x03 ∧ Status.errIllegalVariant.code = 0x04 ∧
  Status.errLengthOverflow.code = 0x05 ∧ Status.errFaulted.code = 0x06 ∧ ∀ st : Status, st.code.toNat < 0x07

/-- R295: UPDATE of any length and FINALIZE in phase Uninitialized fault with ERR_UNINITIALIZED; the payload is taken
and discarded and nothing else changes. -/
def Obligations.UninitializedFaults : Prop :=
  ∀ s : State, s.phase = .uninitialized →
    (∀ (data : List Byte) (rest : List HostAction), s.host = payloads data ++ rest →
      exec (.update data.length) s = .next { s with
        host := rest, phase := .faulted, faultCode := 0x01
        trace := s.trace ++ [.response .errUninitialized []], rsp := s.rsp ++ [0x01] }) ∧
    exec .finalize s = .next { s with
      phase := .faulted, faultCode := 0x01
      trace := s.trace ++ [.response .errUninitialized []], rsp := s.rsp ++ [0x01] }

/-- R296: UPDATE of any length and FINALIZE in phase Finalized fault with ERR_FINALIZED, in the same way. -/
def Obligations.FinalizedFaults : Prop :=
  ∀ s : State, s.phase = .finalized →
    (∀ (data : List Byte) (rest : List HostAction), s.host = payloads data ++ rest →
      exec (.update data.length) s = .next { s with
        host := rest, phase := .faulted, faultCode := 0x02
        trace := s.trace ++ [.response .errFinalized []], rsp := s.rsp ++ [0x02] }) ∧
    exec .finalize s = .next { s with
      phase := .faulted, faultCode := 0x02
      trace := s.trace ++ [.response .errFinalized []], rsp := s.rsp ++ [0x02] }

/-- R297, with the length check of R221: a live UPDATE whose bits the counter has no room for faults with
ERR_LENGTH_OVERFLOW, with no other effect. -/
def Obligations.LengthOverflowFaults : Prop :=
  ∀ (s : State) (data : List Byte) (rest : List HostAction), s.Live → s.host = payloads data ++ rest →
    ((∃ c, s.ctx = .ctx32 c ∧ c.bitLength.toNat + 8 * data.length ≥ 2 ^ 64) ∨
      (∃ c, s.ctx = .ctx64 c ∧
        c.bitLengthHi.toNat * 2 ^ 64 + c.bitLengthLo.toNat + 8 * data.length ≥ 2 ^ 128)) →
    exec (.update data.length) s = .next { s with
      host := rest, phase := .faulted, faultCode := 0x05
      trace := s.trace ++ [.response .errLengthOverflow []], rsp := s.rsp ++ [0x05] }

/-- R300: in phase Faulted every command, INIT, UPDATE, FINALIZE or an illegal word, is answered ERR_FAULTED and has no
other effect; an UPDATE's payload is taken and discarded. -/
def Obligations.FaultedAnswersEveryCommand : Prop :=
  ∀ s : State, s.phase = .faulted →
    (∀ i ∈ ([.init256, .init512, .init384, .finalize] : List Instr), exec i s = .next { s with
      trace := s.trace ++ [.response .errFaulted []], rsp := s.rsp ++ [0x06] }) ∧
    (∀ (data : List Byte) (rest : List HostAction), s.host = payloads data ++ rest →
      exec (.update data.length) s = .next { s with
        host := rest, trace := s.trace ++ [.response .errFaulted []], rsp := s.rsp ++ [0x06] }) ∧
    (∀ (cmd : Word32) (rest : List HostAction) (e : IllegalWord), s.pending = none → s.host = .command cmd :: rest →
      decode cmd = .illegal e → step s = .next { s with
        host := rest, trace := s.trace ++ [.response .errFaulted []], rsp := s.rsp ++ [0x06] })

/-- R301: a step leaves phase Faulted only by a reset. While the phase stays Faulted, so does the code (R37), and the
context keeps its values (R46). -/
def Obligations.OnlyResetLeavesFaulted : Prop :=
  ∀ s t : State, s.phase = .faulted → step s = .next t →
    (t.phase = .faulted ∧ t.faultCode = s.faultCode ∧ t.ctx = s.ctx ∧ t.variant = s.variant) ∨
    (t.phase = .uninitialized ∧ t.trace = s.trace ++ [.reset] ∧
      ((∃ a ∈ s.host, a = .reset) ∨ ∃ cmd data, .resetDuring cmd data ∈ s.host))

/-- R302 (derived in the spec): faults are precise. A step that enters phase Faulted leaves the context and the variant
as they were, starts no pass and gives no digest: the trace gains one response, with the recorded code and no data. -/
def Obligations.FaultsArePrecise : Prop :=
  ∀ s t : State, s.phase ≠ .faulted → step s = .next t → t.phase = .faulted →
    t.ctx = s.ctx ∧ t.variant = s.variant ∧
    ∃ code : Status, code ≠ .ok ∧ code ≠ .errFaulted ∧ t.faultCode = code.code ∧
      t.trace = s.trace ++ [.response code []] ∧ t.rsp = s.rsp ++ [code.code]

/-- R36: the phase after each command, in each phase, and after reset. UPDATE is taken with its whole payload; its length
check is R297's. -/
def Obligations.PhaseTable : Prop :=
  ∀ s : State,
    (∀ i ∈ ([.init256, .init512, .init384] : List Instr), ∃ t, exec i s = .next t ∧
      (s.phase ≠ .faulted → t.phase = .initialized) ∧
      (s.phase = .faulted → t.phase = .faulted ∧ t.rsp = s.rsp ++ [0x06])) ∧
    (∀ (data : List Byte) (rest : List HostAction), s.host = payloads data ++ rest →
      ∃ t, exec (.update data.length) s = .next t ∧
        (s.phase = .uninitialized → t.phase = .faulted ∧ t.faultCode = 0x01) ∧
        (s.Live → s.HasRoom data.length → t.phase = .accumulating) ∧
        (s.Live → ¬ s.HasRoom data.length → t.phase = .faulted ∧ t.faultCode = 0x05) ∧
        (s.phase = .finalized → t.phase = .faulted ∧ t.faultCode = 0x02) ∧
        (s.phase = .faulted → t.phase = .faulted ∧ t.rsp = s.rsp ++ [0x06])) ∧
    (∃ t, exec .finalize s = .next t ∧
      (s.phase = .uninitialized → t.phase = .faulted ∧ t.faultCode = 0x01) ∧
      (s.Live → t.phase = .finalized) ∧
      (s.phase = .finalized → t.phase = .faulted ∧ t.faultCode = 0x02) ∧
      (s.phase = .faulted → t.phase = .faulted ∧ t.rsp = s.rsp ++ [0x06])) ∧
    (∀ (cmd : Word32) (rest : List HostAction) (e : IllegalWord), s.pending = none → s.host = .command cmd :: rest →
      decode cmd = .illegal e → ∃ t, step s = .next t ∧ t.phase = .faulted ∧
        (s.phase = .faulted → t.rsp = s.rsp ++ [0x06])) ∧
    (∀ rest : List HostAction, s.pending = none → s.host = .reset :: rest →
      ∃ t, step s = .next t ∧ t.phase = .uninitialized)

/-- R99: a command that is taken with its whole operands gives exactly one response, after its passes: the status and
the data go out on RSP and into the trace, and only a FINALIZE that answers OK gives data. -/
def Obligations.OneResponsePerCommand : Prop :=
  ∀ (s : State) (i : Instr), (∀ n, i = .update n → ∃ data rest, data.length = n ∧ s.host = payloads data ++ rest) →
    ∃ (t : State) (passes : List Event) (status : Status) (data : List Byte), exec i s = .next t ∧
      t.trace = s.trace ++ passes ++ [.response status data] ∧ (∀ e ∈ passes, e.isPass = true) ∧
      t.rsp = s.rsp ++ status.code :: data ∧ (data ≠ [] → i = .finalize ∧ status = .ok)

/-- R40: events are appended in order and never erased, by any step, and so are the bytes on RSP. -/
def Obligations.TraceAndResponsesOnlyGrow : Prop :=
  ∀ s t : State, step s = .next t → s.trace <+: t.trace ∧ s.rsp <+: t.rsp

/-! ## Invariants and isolation -/

/-- The invariant holds after reset. -/
def Obligations.InvHoldsAtReset : Prop := State.reset.Inv

/-- Every step keeps the invariant: the shape is the one the variant selects (R30, R34), `fault_code` is 0x00 outside
phase Faulted and a recorded code in it (R37), an Uninitialized or Finalized instance holds nothing (R46), `buffer_len`
and the counter agree (R45, R224), RSP is what the trace's responses say (R99), and every event is one the CORE can
emit (R40). -/
def Obligations.StepKeepsInv : Prop := ∀ s t : State, s.Inv → step s = .next t → t.Inv

/-- R41, R46, R47 (derived in the spec): the context of an instance that is not live is unobservable. Change the
context, the variant and the model's counter of free values at will: a step answers the same, and once the instance is
live the two states are equal but for that counter. -/
def Obligations.UnusedContextUnobservable : Prop :=
  ∀ (s t : State) (c : Context) (v : Variant) (k : Nat), ¬ s.Live → step s = .next t →
    ∃ t', step { s with ctx := c, variant := v, draws := k } = .next t' ∧ t'.trace = t.trace ∧ t'.rsp = t.rsp ∧
      t'.phase = t.phase ∧ t'.faultCode = t.faultCode ∧ t'.host = t.host ∧ t'.pending = t.pending ∧
      (t.Live → t'.ctx = t.ctx ∧ t'.variant = t.variant)

/-- R41: no output depends on the buffer bytes at or beyond `buffer_len`. Two V256 instances that differ only in those
bytes (and in the model's counter of free values) give the same events and responses at every UPDATE and FINALIZE, and
again differ only in such bytes; so for the other shape. -/
def Obligations.StaleBytesUnobservable : Prop :=
  ∀ (s : State) (i : Instr) (k : Nat) (t : State), s.Live →
    (i = .finalize ∨ ∃ data rest, i = .update data.length ∧ s.host = payloads data ++ rest) → exec i s = .next t →
    (∀ (c : Ctx32) (buf : Vector Byte 64), s.ctx = .ctx32 c →
      (∀ j : Fin 64, j.val < c.bufferLen.val → buf[j] = c.buf[j]) →
      ∃ t', exec i { s with ctx := .ctx32 { c with buf := buf }, draws := k } = .next t' ∧
        t'.trace = t.trace ∧ t'.rsp = t.rsp ∧ t'.phase = t.phase ∧
        ∃ (d : Ctx32) (buf' : Vector Byte 64), t.ctx = .ctx32 d ∧ t'.ctx = .ctx32 { d with buf := buf' } ∧
          ∀ j : Fin 64, j.val < d.bufferLen.val → buf'[j] = d.buf[j]) ∧
    (∀ (c : Ctx64) (buf : Vector Byte 128), s.ctx = .ctx64 c →
      (∀ j : Fin 128, j.val < c.bufferLen.val → buf[j] = c.buf[j]) →
      ∃ t', exec i { s with ctx := .ctx64 { c with buf := buf }, draws := k } = .next t' ∧
        t'.trace = t.trace ∧ t'.rsp = t.rsp ∧ t'.phase = t.phase ∧
        (t'.ctx = t.ctx ∨ ∃ (d : Ctx64) (buf' : Vector Byte 128),
          t.ctx = .ctx64 d ∧ t'.ctx = .ctx64 { d with buf := buf' } ∧
          ∀ j : Fin 128, j.val < d.bufferLen.val → buf'[j] = d.buf[j]))

/-- R74, R307: a step of one instance leaves every other instance as it was, and is that instance's own step. -/
def Obligations.InstancesAreIndependent : Prop :=
  ∀ (sys sys' : System) (k : Nat), sys.stepAt k = .next sys' →
    sys'.cores.length = sys.cores.length ∧
    (∀ j, j ≠ k → sys'.cores[j]? = sys.cores[j]?) ∧
    (∀ s, sys.cores[k]? = some s → ∃ t, step s = .next t ∧ sys'.cores[k]? = some t)

/-- R73 (with R74): commands of different instances are unordered: their steps commute. -/
def Obligations.StepsOfInstancesCommute : Prop :=
  ∀ (sys a b : System) (j k : Nat), j ≠ k → sys.stepAt j = .next a → sys.stepAt k = .next b →
    ∃ c, a.stepAt k = .next c ∧ b.stepAt j = .next c

/-! ## Word functions and compression -/

/-- R12, R63: big-endian decode and encode of 32- and 64-bit words, and each undoes the other. -/
def Obligations.BigEndianWords : Prop :=
  (∀ a b c d : Byte, (wordOfBE 32 [a, b, c, d]).toNat =
    a.toNat * 2 ^ 24 + b.toNat * 2 ^ 16 + c.toNat * 2 ^ 8 + d.toNat) ∧
  (∀ bytes : List Byte, bytes.length = 8 → (wordOfBE 64 bytes).toNat =
    ((List.range 8).map fun i => (bytes.getD i 0).toNat * 2 ^ (56 - 8 * i)).sum) ∧
  (∀ x : Word32, (bytesBE x).length = 4 ∧ wordOfBE 32 (bytesBE x) = x) ∧
  (∀ x : Word64, (bytesBE x).length = 8 ∧ wordOfBE 64 (bytesBE x) = x) ∧
  (∀ bytes : List Byte, bytes.length = 4 → bytesBE (wordOfBE 32 bytes) = bytes) ∧
  (∀ bytes : List Byte, bytes.length = 8 → bytesBE (wordOfBE 64 bytes) = bytes)

/-- R120: bit i of `rotr_N(x, n)` is bit (i + n) mod N of x, for words of any width. -/
def Obligations.RotateMovesBits : Prop :=
  ∀ (w : Nat) (x : BitVec w) (n : Nat) (h : 0 < n ∧ n < w),
    rotr x n h = (x >>> n) ||| (x <<< (w - n)) ∧
    ∀ i, i < w → (rotr x n h).getLsbD i = x.getLsbD ((i + n) % w)

/-- R123 to R126 with R122: each bit of the four functions of the 32-bit core. The last term of a σ is a shift: it is 0
in the vacated high bits. -/
def Obligations.SigmaBits32 : Prop :=
  ∀ (x : Word32) (i : Nat), i < 32 →
    (smallSigma0W32 x).getLsbD i =
      ((x.getLsbD ((i + 7) % 32) ^^ x.getLsbD ((i + 18) % 32)) ^^ (decide (i < 29) && x.getLsbD (i + 3))) ∧
    (smallSigma1W32 x).getLsbD i =
      ((x.getLsbD ((i + 17) % 32) ^^ x.getLsbD ((i + 19) % 32)) ^^ (decide (i < 22) && x.getLsbD (i + 10))) ∧
    (bigSigma0W32 x).getLsbD i =
      ((x.getLsbD ((i + 2) % 32) ^^ x.getLsbD ((i + 13) % 32)) ^^ x.getLsbD ((i + 22) % 32)) ∧
    (bigSigma1W32 x).getLsbD i =
      ((x.getLsbD ((i + 6) % 32) ^^ x.getLsbD ((i + 11) % 32)) ^^ x.getLsbD ((i + 25) % 32))

/-- R127 to R130 (the spec reads which distance is a shift by inference): each bit of the functions of the 64-bit
core. -/
def Obligations.SigmaBits64 : Prop :=
  ∀ (x : Word64) (i : Nat), i < 64 →
    (smallSigma0W64 x).getLsbD i =
      ((x.getLsbD ((i + 1) % 64) ^^ x.getLsbD ((i + 8) % 64)) ^^ (decide (i < 57) && x.getLsbD (i + 7))) ∧
    (smallSigma1W64 x).getLsbD i =
      ((x.getLsbD ((i + 19) % 64) ^^ x.getLsbD ((i + 61) % 64)) ^^ (decide (i < 58) && x.getLsbD (i + 6))) ∧
    (bigSigma0W64 x).getLsbD i =
      ((x.getLsbD ((i + 28) % 64) ^^ x.getLsbD ((i + 34) % 64)) ^^ x.getLsbD ((i + 39) % 64)) ∧
    (bigSigma1W64 x).getLsbD i =
      ((x.getLsbD ((i + 14) % 64) ^^ x.getLsbD ((i + 18) % 64)) ^^ x.getLsbD ((i + 41) % 64))

/-- R131, R132 (the equivalent forms, which the spec derives): Ch takes each bit of f where e has a 1 and of g where it
has a 0; Maj takes the majority. -/
def Obligations.ChoiceAndMajorityBits : Prop :=
  ∀ (w : Nat) (a b c : BitVec w) (i : Nat), i < w →
    (choice a b c).getLsbD i = (if a.getLsbD i = true then b.getLsbD i else c.getLsbD i) ∧
    (majority a b c).getLsbD i =
      decide (2 ≤ (a.getLsbD i).toNat + (b.getLsbD i).toNat + (c.getLsbD i).toNat)

/-- R150, R151: the 64 schedule words of the 32-bit core: the first 16 are the block's words, big-endian, and the
recurrence gives the others. -/
def Obligations.Schedule32 : Prop :=
  ∀ block : Vector Byte 64,
    (schedule sigmaW32 64 block).length = 64 ∧
    (∀ t : Fin 16, ((schedule sigmaW32 64 block).getD t.val 0).toNat =
      block[4 * t.val].toNat * 2 ^ 24 + block[4 * t.val + 1].toNat * 2 ^ 16 +
        block[4 * t.val + 2].toNat * 2 ^ 8 + block[4 * t.val + 3].toNat) ∧
    ∀ t, 16 ≤ t → t < 64 → (schedule sigmaW32 64 block).getD t 0 =
      (schedule sigmaW32 64 block).getD (t - 16) 0 + smallSigma0W32 ((schedule sigmaW32 64 block).getD (t - 15) 0) +
        (schedule sigmaW32 64 block).getD (t - 7) 0 + smallSigma1W32 ((schedule sigmaW32 64 block).getD (t - 2) 0)

/-- R180, R181 (derived in the spec): the 80 schedule words of the 64-bit core. -/
def Obligations.Schedule64 : Prop :=
  ∀ block : Vector Byte 128,
    (schedule sigmaW64 80 block).length = 80 ∧
    (∀ t : Fin 16, ((schedule sigmaW64 80 block).getD t.val 0).toNat =
      ((List.range 8).map fun i => (block.toList.getD (8 * t.val + i) 0).toNat * 2 ^ (56 - 8 * i)).sum) ∧
    ∀ t, 16 ≤ t → t < 80 → (schedule sigmaW64 80 block).getD t 0 =
      (schedule sigmaW64 80 block).getD (t - 16) 0 + smallSigma0W64 ((schedule sigmaW64 80 block).getD (t - 15) 0) +
        (schedule sigmaW64 80 block).getD (t - 7) 0 + smallSigma1W64 ((schedule sigmaW64 80 block).getD (t - 2) 0)

/-- R153 to R155: COMPRESS32 is 64 rounds, round t with K256[t] and W[t], from the working variables loaded from the
chaining value, and the feed-forward. The round equations are in the form R154 prints; the spec marks them, and the load
of R153, as those of FIPS 180-4 (log entry 15). -/
def Obligations.Compress32Rounds : Prop :=
  ∀ (hin : Vector Word32 8) (block : Vector Byte 64), ∃ v : Nat → Working 32,
    v 0 = ⟨hin[0], hin[1], hin[2], hin[3], hin[4], hin[5], hin[6], hin[7]⟩ ∧
    (∀ t, t < 64 → ∃ t1 t2 : Word32,
      t1 = (v t).h + bigSigma1W32 (v t).e + choice (v t).e (v t).f (v t).g + romK256.getD t 0 +
        (schedule sigmaW32 64 block).getD t 0 ∧
      t2 = bigSigma0W32 (v t).a + majority (v t).a (v t).b (v t).c ∧
      v (t + 1) = { a := t1 + t2, b := (v t).a, c := (v t).b, d := (v t).c, e := (v t).d + t1, f := (v t).e,
                    g := (v t).f, h := (v t).g }) ∧
    compress32 hin block = #v[hin[0] + (v 64).a, hin[1] + (v 64).b, hin[2] + (v 64).c, hin[3] + (v 64).d,
      hin[4] + (v 64).e, hin[5] + (v 64).f, hin[6] + (v 64).g, hin[7] + (v 64).h]

/-- R183 to R185: COMPRESS64 is 80 such rounds, with K512 and the functions of the 64-bit core. The spec marks the load
of R183, the round equations of R184 and the table K512 of R182 as those of FIPS 180-4 (log entry 15). -/
def Obligations.Compress64Rounds : Prop :=
  ∀ (hin : Vector Word64 8) (block : Vector Byte 128), ∃ v : Nat → Working 64,
    v 0 = ⟨hin[0], hin[1], hin[2], hin[3], hin[4], hin[5], hin[6], hin[7]⟩ ∧
    (∀ t, t < 80 → ∃ t1 t2 : Word64,
      t1 = (v t).h + bigSigma1W64 (v t).e + choice (v t).e (v t).f (v t).g + romK512.getD t 0 +
        (schedule sigmaW64 80 block).getD t 0 ∧
      t2 = bigSigma0W64 (v t).a + majority (v t).a (v t).b (v t).c ∧
      v (t + 1) = { a := t1 + t2, b := (v t).a, c := (v t).b, d := (v t).c, e := (v t).d + t1, f := (v t).e,
                    g := (v t).f, h := (v t).g }) ∧
    compress64 hin block = #v[hin[0] + (v 80).a, hin[1] + (v 80).b, hin[2] + (v 80).c, hin[3] + (v 80).d,
      hin[4] + (v 80).e, hin[5] + (v 80).f, hin[6] + (v 80).g, hin[7] + (v 80).h]

/-- R182's last sentence (derived in the spec): the high 32 bits of K512[t] are K256[t], for t below 64; the tables
have 64 and 80 entries. -/
def Obligations.RoundConstantTablesAgree : Prop :=
  romK256.length = 64 ∧ romK512.length = 80 ∧
  ∀ t : Fin 64, (romK512.getD t.val 0).toNat / 2 ^ 32 = (romK256.getD t.val 0).toNat

/-! ## Messages -/

/-- INIT of a variant makes the instance hold the empty message, and a live UPDATE with room appends its payload to the
message the instance holds (R45, R67, R217, R218). -/
def Obligations.UpdateExtendsMessage : Prop :=
  (∀ (s t : State) (v : Variant), s.phase ≠ .faulted → exec (initOf v) s = .next t → t.HoldsMessage v []) ∧
  ∀ (s : State) (v : Variant) (msg data : List Byte) (rest : List HostAction),
    s.HoldsMessage v msg → data.length < 2 ^ 24 → s.host = payloads data ++ rest →
    8 * (msg.length + data.length) < counterBound v →
    ∃ t, exec (.update data.length) s = .next t ∧ t.HoldsMessage v (msg ++ data)

/-- R263 (derived in the spec): FINALIZE of an instance that holds a message answers OK with the digest of the padded
message. -/
def Obligations.FinalizeGivesMessageDigest : Prop :=
  ∀ (s : State) (v : Variant) (msg : List Byte), s.HoldsMessage v msg →
    ∃ (t : State) (passes : List Event), exec .finalize s = .next t ∧
      t.trace = s.trace ++ passes ++ [.response .ok (messageDigest v msg)] ∧
      t.rsp = s.rsp ++ 0x00 :: messageDigest v msg ∧
      passCount passes = if msg.length % blockSize v ≥ blockSize v - lengthFieldSize v then 2 else 1

/-- R262, R263, R334 (the first two derived in the spec): an instance that is not Faulted and takes INIT, any UPDATEs
and FINALIZE from the host gives, in as many steps, the digest of the whole message, after the pass count of R262. -/
def Obligations.HashProtocolGivesDigest : Prop :=
  ∀ (s : State) (v : Variant) (chunks : List (List Byte)) (rest : List HostAction),
    s.phase ≠ .faulted → s.pending = none → s.host = hashActions v chunks ++ rest →
    (∀ d ∈ chunks, d.length < 2 ^ 24) → 8 * chunks.flatten.length < counterBound v →
    ∃ (t : State) (events : List Event), Host.Core.run Sys2Proof.core (chunks.length + 2) s = .next t ∧
      t.trace = s.trace ++ events ++ [.response .ok (messageDigest v chunks.flatten)] ∧
      passCount events = chunks.flatten.length / blockSize v +
        (if chunks.flatten.length % blockSize v ≥ blockSize v - lengthFieldSize v then 2 else 1) ∧
      t.host = rest ∧ t.phase = .finalized ∧ t.ctx = .ctx32 Ctx32.zero

/-- R339 (derived in the spec): an instance that holds a message of L bytes absorbs n more exactly when L + n is at
most 2^61 - 1 for V256, or 2^125 - 1 for V512 and V384; otherwise the UPDATE faults with ERR_LENGTH_OVERFLOW. -/
def Obligations.MessageLengthBound : Prop :=
  ∀ (s : State) (v : Variant) (msg data : List Byte) (rest : List HostAction),
    s.HoldsMessage v msg → data.length < 2 ^ 24 → s.host = payloads data ++ rest →
    ∃ t, exec (.update data.length) s = .next t ∧
      (t.phase = .accumulating ↔ msg.length + data.length ≤ (if v = .v256 then 2 ^ 61 - 1 else 2 ^ 125 - 1)) ∧
      (t.phase ≠ .accumulating → t.phase = .faulted ∧ t.faultCode = 0x05)

/-- R102, R338: the pseudo-commands cut a message into chunks of at most 2^24 - 1 bytes, in order and with nothing
lost, and into none when it is empty; HASH is the protocol of R334 on them. That UPDATE* of an empty message is no command
(log entry 18), and that HASH and UPDATE* cut alike and into no empty chunk (log entry 19), are the model's choices. -/
def Obligations.PseudoCommandsCarryMessage : Prop :=
  (∀ msg : List Byte, (messageChunks msg).flatten = msg ∧
    (∀ d ∈ messageChunks msg, d ≠ [] ∧ d.length ≤ 2 ^ 24 - 1) ∧
    updateStar msg = (messageChunks msg).flatMap updateActions) ∧
  messageChunks [] = [] ∧
  ∀ (v : Variant) (msg : List Byte), ∃ word : Word32, decode word = .command (initOf v) ∧
    hash v msg = .command word :: (updateStar msg ++ [.command 0x03000000])
end

