-- ==== Sys2Proof/Laws/Operands.lean ====
section
/-! SUPPORT. What the operand operations do: taking a payload from the host's actions (all four outcomes), and the
byte order of words. -/

namespace Sys2Proof.Machine

/-! ## The payload -/

@[simp] theorem payloads_nil : payloads [] = [] := rfl

@[simp] theorem payloads_cons (x : Byte) (data : List Byte) : payloads (x :: data) = .payload x :: payloads data := rfl

@[simp] theorem payloads_append (a b : List Byte) : payloads (a ++ b) = payloads a ++ payloads b := by
  simp [payloads]

@[simp] theorem length_payloads (data : List Byte) : (payloads data).length = data.length := by
  simp [payloads]

theorem takePayload_payloads (data : List Byte) (rest : List HostAction) :
    takePayload data.length (payloads data ++ rest) = .complete data rest := by
  induction data with
  | nil => cases rest <;> rfl
  | cons x data ih => simp [takePayload, ih, Payload.cons]

/-- The payload of an UPDATE whose length is given by name. -/
theorem takePayload_of_length {data : List Byte} {n : Nat} (h : data.length = n) (rest : List HostAction) :
    takePayload n (payloads data ++ rest) = .complete data rest := h ▸ takePayload_payloads data rest

theorem takePayload_short {data : List Byte} {n : Nat} (h : data.length < n) :
    takePayload n (payloads data) = .short := by
  induction data generalizing n with
  | nil => obtain ⟨n, rfl⟩ : ∃ k, n = k + 1 := ⟨n - 1, by simp at h; omega⟩; rfl
  | cons x data ih =>
    obtain ⟨n, rfl⟩ : ∃ k, n = k + 1 := ⟨n - 1, by simp at h; omega⟩
    simp [takePayload, ih (n := n) (by simpa using h), Payload.cons]

theorem takePayload_reset {data : List Byte} {n : Nat} (h : data.length < n) (rest : List HostAction) :
    takePayload n (payloads data ++ .reset :: rest) = .reset (discardPayload (n - data.length) rest) := by
  induction data generalizing n with
  | nil => obtain ⟨n, rfl⟩ : ∃ k, n = k + 1 := ⟨n - 1, by simp at h; omega⟩; rfl
  | cons x data ih =>
    obtain ⟨n, rfl⟩ : ∃ k, n = k + 1 := ⟨n - 1, by simp at h; omega⟩
    simp [takePayload, ih (n := n) (by simpa using h), Payload.cons]

theorem takePayload_command {data : List Byte} {n : Nat} (h : data.length < n) (cmd : Word32)
    (rest : List HostAction) : takePayload n (payloads data ++ .command cmd :: rest) = .interrupted := by
  induction data generalizing n with
  | nil => obtain ⟨n, rfl⟩ : ∃ k, n = k + 1 := ⟨n - 1, by simp at h; omega⟩; rfl
  | cons x data ih =>
    obtain ⟨n, rfl⟩ : ∃ k, n = k + 1 := ⟨n - 1, by simp at h; omega⟩
    simp [takePayload, ih (n := n) (by simpa using h), Payload.cons]

theorem takePayload_resetDuring {data : List Byte} {n : Nat} (h : data.length < n) (cmd : Word32) (d : List Byte)
    (rest : List HostAction) : takePayload n (payloads data ++ .resetDuring cmd d :: rest) = .interrupted := by
  induction data generalizing n with
  | nil => obtain ⟨n, rfl⟩ : ∃ k, n = k + 1 := ⟨n - 1, by simp at h; omega⟩; rfl
  | cons x data ih =>
    obtain ⟨n, rfl⟩ : ∃ k, n = k + 1 := ⟨n - 1, by simp at h; omega⟩
    simp [takePayload, ih (n := n) (by simpa using h), Payload.cons]

/-- A payload is complete exactly when the host's next `n` actions are its bytes. -/
theorem takePayload_complete {n : Nat} {actions : List HostAction} {data : List Byte} {rest : List HostAction}
    (h : takePayload n actions = .complete data rest) : actions = payloads data ++ rest ∧ data.length = n := by
  induction n generalizing actions data with
  | zero => cases actions <;> (simp only [takePayload, Payload.complete.injEq] at h; simp [← h.1, h.2])
  | succ n ih =>
    cases actions with
    | nil => simp [takePayload] at h
    | cons a actions =>
      cases a with
      | command => simp [takePayload] at h
      | reset => simp [takePayload] at h
      | resetDuring => simp [takePayload] at h
      | payload x =>
        simp only [takePayload] at h
        cases h' : takePayload n actions with
        | complete d r =>
          simp only [h', Payload.cons, Payload.complete.injEq] at h
          obtain ⟨rfl, rfl⟩ := h
          obtain ⟨rfl, rfl⟩ := ih h'
          simp
        | short => simp [h', Payload.cons] at h
        | reset => simp [h', Payload.cons] at h
        | interrupted => simp [h', Payload.cons] at h

/-- No payload action is left to discard. -/
theorem discardPayload_of_head (n : Nat) {rest : List HostAction} (h : ∀ x, rest.head? ≠ some (.payload x)) :
    discardPayload n rest = rest := by
  cases n with
  | zero => cases rest <;> rfl
  | succ n =>
    cases rest with
    | nil => rfl
    | cons a rest =>
      cases a with
      | payload x => exact absurd rfl (h x)
      | command => rfl
      | reset => rfl
      | resetDuring => rfl

/-- No more bytes are discarded than were owed. -/
theorem discardPayload_of_length {left : List Byte} {n : Nat} (hl : left.length = n) (rest : List HostAction) :
    discardPayload n (payloads left ++ rest) = rest := by
  induction left generalizing n with
  | nil => subst hl; cases rest <;> rfl
  | cons x left ih =>
    subst hl
    simpa [discardPayload] using ih rfl

/-- What is left of an abandoned payload is discarded (R330). -/
theorem discardPayload_payloads {left : List Byte} {n : Nat} (hl : left.length ≤ n) {rest : List HostAction}
    (h : ∀ x, rest.head? ≠ some (.payload x)) : discardPayload n (payloads left ++ rest) = rest := by
  induction left generalizing n with
  | nil => exact discardPayload_of_head n h
  | cons x left ih =>
    obtain ⟨n, rfl⟩ : ∃ k, n = k + 1 := ⟨n - 1, by simp at hl; omega⟩
    simpa [discardPayload] using ih (n := n) (by simpa using hl)

/-- The bytes after a reset that are exactly the rest of the abandoned payload, or the last bytes before another action,
are discarded (R330). -/
theorem discardPayload_owed {n : Nat} {data left : List Byte} {rest : List HostAction}
    (hl : data.length + left.length ≤ n)
    (h : data.length + left.length = n ∨ ∀ x, rest.head? ≠ some (.payload x)) :
    discardPayload (n - data.length) (payloads left ++ rest) = rest :=
  h.elim (fun he => discardPayload_of_length (by omega) rest) (discardPayload_payloads (by omega))

/-! ## Byte order -/

theorem beNat_append_singleton (bytes : List Byte) (x : Byte) :
    beNat (bytes ++ [x]) = beNat bytes * 256 + x.toNat := by
  simp [beNat]

@[simp] theorem length_bytesBE {w : Nat} (x : BitVec w) : (bytesBE x).length = w / 8 := by
  simp [bytesBE]

theorem getElem_bytesBE {w : Nat} (x : BitVec w) (i : Nat) (h : i < (bytesBE x).length) :
    (bytesBE x)[i] = x.extractLsb' (w - 8 * (i + 1)) 8 := by
  simp [bytesBE]

/-- The number that the first `k` bytes of a word stand for. -/
theorem beNat_take_bytesBE {w : Nat} (x : BitVec w) (k : Nat) (h : 8 * k ≤ w) :
    beNat ((bytesBE x).take k) = x.toNat / 2 ^ (w - 8 * k) := by
  induction k with
  | zero => simp [beNat, Nat.div_eq_of_lt x.isLt]
  | succ k ih =>
    have hk : k < (bytesBE x).length := by simp; omega
    rw [List.take_succ_eq_append_getElem hk, beNat_append_singleton, ih (by omega), getElem_bytesBE]
    have hs : w - 8 * k = (w - 8 * (k + 1)) + 8 := by omega
    simp only [BitVec.extractLsb'_toNat, Nat.shiftRight_eq_div_pow]
    rw [hs, Nat.pow_add, ← Nat.div_div_eq_div_mul]
    omega

/-- `BE_N` undoes `bytes_BE_N` on words of whole bytes (spec/00_scope.md rule R12). -/
theorem beNat_bytesBE {w : Nat} (x : BitVec w) (h : w % 8 = 0) : beNat (bytesBE x) = x.toNat := by
  have := beNat_take_bytesBE x (w / 8) (by omega)
  rw [List.take_of_length_le (by simp)] at this
  rw [this, show w - 8 * (w / 8) = 0 by omega]
  simp

/-- The first byte of a number counts most. -/
theorem beNat_cons (x : Byte) (bytes : List Byte) : beNat (x :: bytes) = x.toNat * 256 ^ bytes.length + beNat bytes := by
  have fold : ∀ (l : List Byte) (a : Nat),
      l.foldl (fun acc y => acc * 256 + y.toNat) a = a * 256 ^ l.length + beNat l := by
    intro l
    induction l with
    | nil => simp [beNat]
    | cons y l ih =>
      intro a
      simp only [List.foldl_cons, beNat, List.length_cons]
      rw [ih, ih]
      simp
      ring
  rw [beNat, List.foldl_cons, fold]
  simp

theorem beNat_append (a b : List Byte) : beNat (a ++ b) = beNat a * 256 ^ b.length + beNat b := by
  induction a with
  | nil => simp [beNat]
  | cons x a ih =>
    rw [List.cons_append, beNat_cons, beNat_cons, ih, List.length_append, Nat.pow_add]
    ring

theorem beNat_lt (bytes : List Byte) : beNat bytes < 256 ^ bytes.length := by
  induction bytes with
  | nil => simp [beNat]
  | cons x bytes ih =>
    rw [beNat_cons, List.length_cons, Nat.pow_succ]
    have := x.isLt
    nlinarith [Nat.pow_pos (n := bytes.length) (show 0 < 256 by decide)]

/-- Byte `j` of a word, as a number. -/
theorem getD_bytesBE_toNat {w : Nat} (x : BitVec w) {j : Nat} (hj : j < w / 8) :
    ((bytesBE x).getD j 0).toNat = x.toNat / 2 ^ (w - 8 * (j + 1)) % 2 ^ 8 := by
  rw [List.getD_eq_getElem _ _ (by simpa using hj), getElem_bytesBE, BitVec.extractLsb'_toNat,
    Nat.shiftRight_eq_div_pow]

end Sys2Proof.Machine
end

