-- ==== Sys2Proof/Laws/Compress.lean ====
section
/-! SUPPORT. What a compression pass is made of: the schedule's words (R150, R151), the rounds one by one (R154), and the
lengths of the tables. -/

namespace Sys2Proof.Machine

variable {w bs : Nat}

@[simp] theorem length_romK256 : romK256.length = 64 := rfl

@[simp] theorem length_romK512 : romK512.length = 80 := rfl

@[simp] theorem length_blockWords (block : Vector Byte bs) : (blockWords w block).length = 16 := by
  simp [blockWords]

theorem length_extendSchedule (f : SigmaFunctions w) (n : Nat) (l : List (BitVec w)) :
    (extendSchedule f n l).length = l.length + n := by
  induction n generalizing l with
  | zero => rfl
  | succ n ih => rw [extendSchedule, ih, List.length_cons]; omega

theorem length_schedule (f : SigmaFunctions w) {rounds : Nat} (h : 16 ≤ rounds) (block : Vector Byte bs) :
    (schedule f rounds block).length = rounds := by
  simp [schedule, length_extendSchedule]; omega

/-- Extending a schedule by one more word, at its end. -/
theorem extendSchedule_succ (f : SigmaFunctions w) (n : Nat) (l : List (BitVec w)) :
    extendSchedule f (n + 1) l = nextScheduleWord f (extendSchedule f n l) :: extendSchedule f n l := by
  induction n generalizing l with
  | zero => rfl
  | succ n ih => rw [extendSchedule, ih, extendSchedule]

/-- One more word at the end of a schedule is the next one of the recurrence; the others stay. -/
theorem schedule_succ (f : SigmaFunctions w) {rounds : Nat} (h : 16 ≤ rounds) (block : Vector Byte bs) :
    schedule f (rounds + 1) block = schedule f rounds block ++
      [nextScheduleWord f (schedule f rounds block).reverse] := by
  simp only [schedule, List.reverse_reverse]
  rw [show rounds + 1 - 16 = (rounds - 16) + 1 by omega, extendSchedule_succ, List.reverse_cons]

/-- The rounds before round `t`. -/
def workingAt (f : SigmaFunctions w) (k words : List (BitVec w)) (hin : Vector (BitVec w) 8) (t : Nat) : Working w :=
  ((k.zip words).take t).foldl (Working.round f) (Working.load hin)

theorem workingAt_zero (f : SigmaFunctions w) (k words : List (BitVec w)) (hin : Vector (BitVec w) 8) :
    workingAt f k words hin 0 = Working.load hin := rfl

/-- Round `t` takes round constant `t` and schedule word `t`. -/
theorem workingAt_succ (f : SigmaFunctions w) {k words : List (BitVec w)} (hin : Vector (BitVec w) 8) {t : Nat}
    (hk : t < k.length) (hw : t < words.length) :
    workingAt f k words hin (t + 1) = (workingAt f k words hin t).round f (k.getD t 0, words.getD t 0) := by
  have hz : t < (k.zip words).length := by simp; omega
  rw [workingAt, List.take_succ_eq_append_getElem hz, List.foldl_append, List.foldl_cons, List.foldl_nil, ← workingAt,
    List.getElem_zip, List.getD_eq_getElem _ _ hk, List.getD_eq_getElem _ _ hw]

/-- After all rounds. -/
theorem workingAt_all (f : SigmaFunctions w) (k : List (BitVec w)) (hin : Vector (BitVec w) 8) (block : Vector Byte bs)
    (h : 16 ≤ k.length) : workingAt f k (schedule f k.length block) hin k.length = runRounds f k hin block := by
  rw [workingAt, List.take_of_length_le (by simp [length_schedule f h]), runRounds]

/-! ## Words of a longer schedule -/

/-- A longer schedule begins with a shorter one. -/
theorem schedule_prefix (f : SigmaFunctions w) (block : Vector Byte bs) {n m : Nat} (hn : 16 ≤ n) (hm : n ≤ m) {t : Nat}
    (ht : t < n) : (schedule f m block).getD t 0 = (schedule f n block).getD t 0 := by
  induction m, hm using Nat.le_induction with
  | base => rfl
  | succ m hm ih =>
    rw [schedule_succ f (by omega), List.getD_append _ _ _ _ (by rw [length_schedule f (by omega)]; omega), ih]

/-- The first 16 words are the block's (R150, R180). -/
theorem schedule_block (f : SigmaFunctions w) (block : Vector Byte bs) {m : Nat} (hm : 16 ≤ m) {t : Nat} (ht : t < 16) :
    (schedule f m block).getD t 0 = wordOfBE w ((block.toList.drop (w / 8 * t)).take (w / 8)) := by
  rw [schedule_prefix f block (n := 16) (Nat.le_refl _) hm ht, schedule, Nat.sub_self, extendSchedule,
    List.reverse_reverse, blockWords, List.getD_eq_getElem _ _ (by simpa using ht)]
  simp

/-! ## Rotations and shifts, bit by bit (R120, R122) -/

/-- A bit of a rotated word that does not wrap around. -/
theorem getLsbD_rotr_of_lt (x : BitVec w) {n : Nat} (h : 0 < n ∧ n < w) {i : Nat} (hi : i + n < w) :
    (rotr x n h).getLsbD i = x.getLsbD (i + n) := by
  have hw : i < w := by omega
  simp [rotr, hw, Nat.add_comm n i, show i < w - n by omega]

/-- A bit of a rotated word that wraps around. -/
theorem getLsbD_rotr_of_ge (x : BitVec w) {n : Nat} (h : 0 < n ∧ n < w) {i : Nat} (hw : i < w) (hi : w ≤ i + n) :
    (rotr x n h).getLsbD i = x.getLsbD (i + n - w) := by
  simp [rotr, hw, show ¬ i < w - n by omega, BitVec.getLsbD_of_ge x (n + i) (by omega)]
  rw [← BitVec.getLsbD_eq_getElem, show i - (w - n) = i + n - w by omega]

end Sys2Proof.Machine
end

