-- ==== Sys2Proof/Laws/Decode.lean ====
section
/-! SUPPORT. The fields of a command word as numbers, and what the decoder answers on each kind of word. -/

namespace Sys2Proof

theorem cmdOp_eq_iff (cmd : Word32) (k : Nat) (hk : k < 2 ^ 8) :
    cmdOp cmd = BitVec.ofNat 8 k ↔ cmd.toNat / 2 ^ 24 = k := by
  rw [← BitVec.toNat_inj]
  simp only [cmdOp, BitVec.extractLsb'_toNat, BitVec.toNat_ofNat, Nat.shiftRight_eq_div_pow]
  have := cmd.isLt
  omega

theorem cmdInitReserved_eq_zero_iff (cmd : Word32) : cmdInitReserved cmd = 0 ↔ cmd.toNat / 2 ^ 8 % 2 ^ 16 = 0 := by
  rw [← BitVec.toNat_inj]
  simp [cmdInitReserved, Nat.shiftRight_eq_div_pow]

theorem cmdVariant_eq_iff (cmd : Word32) (k : Nat) (hk : k < 2 ^ 8) :
    cmdVariant cmd = BitVec.ofNat 8 k ↔ cmd.toNat % 2 ^ 8 = k := by
  rw [← BitVec.toNat_inj]
  simp only [cmdVariant, BitVec.extractLsb'_toNat, BitVec.toNat_ofNat, Nat.shiftRight_zero]
  omega

theorem cmdArg_toNat (cmd : Word32) : (cmdArg cmd).toNat = cmd.toNat % 2 ^ 24 := by
  simp [cmdArg]

theorem cmdArg_eq_zero_iff (cmd : Word32) : cmdArg cmd = 0 ↔ cmd.toNat % 2 ^ 24 = 0 := by
  rw [← BitVec.toNat_inj, cmdArg_toNat]
  rfl

/-- The decoder over the numbers of the fields (R96). -/
theorem decode_eq (cmd : Word32) : decode cmd =
    if cmd.toNat / 2 ^ 24 = 1 then
      if cmd.toNat / 2 ^ 8 % 2 ^ 16 ≠ 0 then .illegal .illegalCommand
      else if cmd.toNat % 2 ^ 8 = 0 then .command .init256
      else if cmd.toNat % 2 ^ 8 = 1 then .command .init512
      else if cmd.toNat % 2 ^ 8 = 2 then .command .init384
      else .illegal .illegalVariant
    else if cmd.toNat / 2 ^ 24 = 2 then .command (.update (cmd.toNat % 2 ^ 24))
    else if cmd.toNat / 2 ^ 24 = 3 then
      if cmd.toNat % 2 ^ 24 ≠ 0 then .illegal .illegalCommand else .command .finalize
    else .illegal .illegalCommand := by
  unfold decode
  simp only [← cmdOp_eq_iff cmd 1 (by decide), ← cmdOp_eq_iff cmd 2 (by decide), ← cmdOp_eq_iff cmd 3 (by decide),
    ← cmdVariant_eq_iff cmd 0 (by decide), ← cmdVariant_eq_iff cmd 1 (by decide),
    ← cmdVariant_eq_iff cmd 2 (by decide), ne_eq, ← cmdInitReserved_eq_zero_iff, ← cmdArg_eq_zero_iff, cmdArg_toNat]
  rfl

theorem wellFormed_update (n : Nat) : (Instr.update n).wellFormed = true ↔ n < 2 ^ 24 := by
  unfold Instr.wellFormed
  exact decide_eq_true_iff

/-- The word of an UPDATE as a number (R94). -/
theorem encode_update_toNat {n : Nat} (h : n < 2 ^ 24) : (encode (.update n)).toNat = 0x02000000 + n := by
  simp only [encode, BitVec.toNat_append, BitVec.toNat_ofNat, Nat.mod_eq_of_lt h]
  rw [Nat.shiftLeft_eq, Nat.mul_comm, ← Nat.two_pow_add_eq_or_of_lt h]

end Sys2Proof
end

