-- ==== Sys2Proof/Laws/State.lean ====
section
/-! SUPPORT. What each shared update does to each field of State: one lemma per field per update, so that no later
proof unfolds a record update. -/

namespace Sys2Proof.Machine

/-! ## respond -/

@[simp] theorem State.respond_phase (s : State) (status : Status) (data : List Byte) :
    (s.respond status data).phase = s.phase := rfl

@[simp] theorem State.respond_faultCode (s : State) (status : Status) (data : List Byte) :
    (s.respond status data).faultCode = s.faultCode := rfl

@[simp] theorem State.respond_variant (s : State) (status : Status) (data : List Byte) :
    (s.respond status data).variant = s.variant := rfl

@[simp] theorem State.respond_ctx (s : State) (status : Status) (data : List Byte) :
    (s.respond status data).ctx = s.ctx := rfl

@[simp] theorem State.respond_trace (s : State) (status : Status) (data : List Byte) :
    (s.respond status data).trace = s.trace ++ [.response status data] := rfl

@[simp] theorem State.respond_rsp (s : State) (status : Status) (data : List Byte) :
    (s.respond status data).rsp = s.rsp ++ status.code :: data := rfl

@[simp] theorem State.respond_host (s : State) (status : Status) (data : List Byte) :
    (s.respond status data).host = s.host := rfl

@[simp] theorem State.respond_pending (s : State) (status : Status) (data : List Byte) :
    (s.respond status data).pending = s.pending := rfl

@[simp] theorem State.respond_draws (s : State) (status : Status) (data : List Byte) :
    (s.respond status data).draws = s.draws := rfl

/-! ## raiseFault -/

@[simp] theorem State.raiseFault_phase (s : State) (code : Status) :
    (s.raiseFault code).phase = .faulted := rfl

@[simp] theorem State.raiseFault_faultCode (s : State) (code : Status) :
    (s.raiseFault code).faultCode = code.code := rfl

@[simp] theorem State.raiseFault_variant (s : State) (code : Status) :
    (s.raiseFault code).variant = s.variant := rfl

@[simp] theorem State.raiseFault_ctx (s : State) (code : Status) :
    (s.raiseFault code).ctx = s.ctx := rfl

@[simp] theorem State.raiseFault_trace (s : State) (code : Status) :
    (s.raiseFault code).trace = s.trace ++ [.response code []] := rfl

@[simp] theorem State.raiseFault_rsp (s : State) (code : Status) :
    (s.raiseFault code).rsp = s.rsp ++ [code.code] := rfl

@[simp] theorem State.raiseFault_host (s : State) (code : Status) :
    (s.raiseFault code).host = s.host := rfl

@[simp] theorem State.raiseFault_pending (s : State) (code : Status) :
    (s.raiseFault code).pending = s.pending := rfl

@[simp] theorem State.raiseFault_draws (s : State) (code : Status) :
    (s.raiseFault code).draws = s.draws := rfl

/-! ## applyReset -/

@[simp] theorem State.applyReset_phase (s : State) :
    (s.applyReset).phase = .uninitialized := rfl

@[simp] theorem State.applyReset_faultCode (s : State) :
    (s.applyReset).faultCode = 0x00 := rfl

@[simp] theorem State.applyReset_variant (s : State) :
    (s.applyReset).variant = .v256 := rfl

@[simp] theorem State.applyReset_ctx (s : State) :
    (s.applyReset).ctx = .ctx32 Ctx32.zero := rfl

@[simp] theorem State.applyReset_trace (s : State) :
    (s.applyReset).trace = s.trace ++ [.reset] := rfl

@[simp] theorem State.applyReset_rsp (s : State) :
    (s.applyReset).rsp = s.rsp := rfl

@[simp] theorem State.applyReset_host (s : State) :
    (s.applyReset).host = s.host := rfl

@[simp] theorem State.applyReset_pending (s : State) :
    (s.applyReset).pending = none := rfl

@[simp] theorem State.applyReset_draws (s : State) :
    (s.applyReset).draws = s.draws := rfl

/-! ## zeroize -/

@[simp] theorem State.zeroize_phase (s : State) :
    (s.zeroize).phase = s.phase := rfl

@[simp] theorem State.zeroize_faultCode (s : State) :
    (s.zeroize).faultCode = s.faultCode := rfl

@[simp] theorem State.zeroize_variant (s : State) :
    (s.zeroize).variant = .v256 := rfl

@[simp] theorem State.zeroize_ctx (s : State) :
    (s.zeroize).ctx = .ctx32 Ctx32.zero := rfl

@[simp] theorem State.zeroize_trace (s : State) :
    (s.zeroize).trace = s.trace := rfl

@[simp] theorem State.zeroize_rsp (s : State) :
    (s.zeroize).rsp = s.rsp := rfl

@[simp] theorem State.zeroize_host (s : State) :
    (s.zeroize).host = s.host := rfl

@[simp] theorem State.zeroize_pending (s : State) :
    (s.zeroize).pending = s.pending := rfl

@[simp] theorem State.zeroize_draws (s : State) :
    (s.zeroize).draws = s.draws := rfl

/-! ## initialize -/

@[simp] theorem State.initialize_phase (s : State) (v : Variant) (c : Context) :
    (s.initialize v c).phase = .initialized := rfl

@[simp] theorem State.initialize_faultCode (s : State) (v : Variant) (c : Context) :
    (s.initialize v c).faultCode = s.faultCode := rfl

@[simp] theorem State.initialize_variant (s : State) (v : Variant) (c : Context) :
    (s.initialize v c).variant = v := rfl

@[simp] theorem State.initialize_ctx (s : State) (v : Variant) (c : Context) :
    (s.initialize v c).ctx = c := rfl

@[simp] theorem State.initialize_trace (s : State) (v : Variant) (c : Context) :
    (s.initialize v c).trace = s.trace ++ [.response .ok []] := rfl

@[simp] theorem State.initialize_rsp (s : State) (v : Variant) (c : Context) :
    (s.initialize v c).rsp = s.rsp ++ [0x00] := rfl

@[simp] theorem State.initialize_host (s : State) (v : Variant) (c : Context) :
    (s.initialize v c).host = s.host := rfl

@[simp] theorem State.initialize_pending (s : State) (v : Variant) (c : Context) :
    (s.initialize v c).pending = s.pending := rfl

@[simp] theorem State.initialize_draws (s : State) (v : Variant) (c : Context) :
    (s.initialize v c).draws = s.draws := rfl

/-! ## finish -/

@[simp] theorem State.finish_phase (s : State) (passes : List Event) (digest : List Byte) :
    (s.finish passes digest).phase = .finalized := rfl

@[simp] theorem State.finish_faultCode (s : State) (passes : List Event) (digest : List Byte) :
    (s.finish passes digest).faultCode = s.faultCode := rfl

@[simp] theorem State.finish_variant (s : State) (passes : List Event) (digest : List Byte) :
    (s.finish passes digest).variant = .v256 := rfl

@[simp] theorem State.finish_ctx (s : State) (passes : List Event) (digest : List Byte) :
    (s.finish passes digest).ctx = .ctx32 Ctx32.zero := rfl

@[simp] theorem State.finish_trace (s : State) (passes : List Event) (digest : List Byte) :
    (s.finish passes digest).trace = s.trace ++ passes ++ [.response .ok digest] := rfl

@[simp] theorem State.finish_rsp (s : State) (passes : List Event) (digest : List Byte) :
    (s.finish passes digest).rsp = s.rsp ++ 0x00 :: digest := rfl

@[simp] theorem State.finish_host (s : State) (passes : List Event) (digest : List Byte) :
    (s.finish passes digest).host = s.host := rfl

@[simp] theorem State.finish_pending (s : State) (passes : List Event) (digest : List Byte) :
    (s.finish passes digest).pending = s.pending := rfl

@[simp] theorem State.finish_draws (s : State) (passes : List Event) (digest : List Byte) :
    (s.finish passes digest).draws = s.draws := rfl

end Sys2Proof.Machine
end

