-- ==== Sys2Proof/Laws/Ops.lean ====
section
/-! SUPPORT. What the shared operations can do: the acceptance checks, the rejection of a word, the block buffer's
accesses, and the counters. -/

namespace Sys2Proof.Machine

/-! ## Acceptance (R293) -/

theorem accept_of_faulted {s : State} (h : s.phase = .faulted) (b : Bool) (f : State → State) :
    s.accept b f = s.respond .errFaulted [] := by simp [State.accept, h]

theorem accept_of_live {s : State} (h : s.Live) (b : Bool) (f : State → State) : s.accept b f = f s := by
  rcases h with h | h <;> simp [State.accept, h]

theorem accept_of_uninitialized {s : State} (h : s.phase = .uninitialized) (f : State → State) :
    s.accept true f = s.raiseFault .errUninitialized := by simp [State.accept, h]

theorem accept_of_finalized {s : State} (h : s.phase = .finalized) (f : State → State) :
    s.accept true f = s.raiseFault .errFinalized := by simp [State.accept, h]

/-- A command that needs no context passes in every phase but Faulted. -/
theorem accept_false_of_not_faulted {s : State} (h : s.phase ≠ .faulted) (f : State → State) :
    s.accept false f = f s := by
  unfold State.accept
  cases hp : s.phase <;> simp_all

/-- Everything the acceptance checks can answer. -/
theorem accept_cases (s : State) (b : Bool) (f : State → State) :
    (s.phase = .faulted ∧ s.accept b f = s.respond .errFaulted []) ∨
    (s.phase ≠ .faulted ∧ s.accept b f = f s ∧ (s.Live ∨ b = false)) ∨
    (s.phase = .uninitialized ∧ b = true ∧ s.accept b f = s.raiseFault .errUninitialized) ∨
    (s.phase = .finalized ∧ b = true ∧ s.accept b f = s.raiseFault .errFinalized) := by
  unfold State.accept State.Live
  cases hp : s.phase <;> cases b <;> simp

theorem rejectWord_of_faulted {s : State} (h : s.phase = .faulted) (e : IllegalWord) :
    s.rejectWord e = s.respond .errFaulted [] := by simp [State.rejectWord, h]

theorem rejectWord_of_not_faulted {s : State} (h : s.phase ≠ .faulted) (e : IllegalWord) :
    s.rejectWord e = s.raiseFault (illegalStatus e) := by
  unfold State.rejectWord
  cases hp : s.phase <;> simp_all

theorem illegalStatus_ne (e : IllegalWord) : illegalStatus e ≠ .ok ∧ illegalStatus e ≠ .errFaulted := by
  cases e <;> simp [illegalStatus]

@[simp] theorem Status.code_ok : Status.ok.code = 0x00 := rfl

/-- The codes a fault can record (R292). -/
theorem Status.code_mem {st : Status} (h : st ≠ .ok) (h' : st ≠ .errFaulted) :
    st.code ∈ ([0x01, 0x02, 0x03, 0x04, 0x05] : List Byte) := by
  cases st <;> simp_all [Status.code]

/-! ## UPDATE's payload -/

/-- Everything UPDATE can answer: it runs with its whole payload, waits, is abandoned by a reset, or stops on a breach
of the host's duties. -/
theorem execUpdate_cases (n : Nat) (s : State) :
    (∃ data rest, data.length = n ∧ s.host = payloads data ++ rest ∧
      execUpdate n s = .next ({ s with host := rest }.accept true fun s => s.update data)) ∨
    execUpdate n s = .next { s with pending := some n } ∨
    (.reset ∈ s.host ∧ ∃ rest, execUpdate n s = .next { s with host := rest }.applyReset) ∨
    execUpdate n s = .fault .commandWhileWaiting := by
  have hreset : ∀ {n actions rest}, takePayload n actions = .reset rest → HostAction.reset ∈ actions := by
    intro n actions rest h
    induction n generalizing actions with
    | zero => cases actions <;> simp [takePayload] at h
    | succ n ih =>
      cases actions with
      | nil => simp [takePayload] at h
      | cons a actions =>
        cases a with
        | command => simp [takePayload] at h
        | resetDuring => simp [takePayload] at h
        | reset => simp
        | payload x =>
          simp only [takePayload] at h
          cases h' : takePayload n actions <;> simp [h', Payload.cons] at h
          exact List.mem_cons_of_mem _ (ih (h ▸ h'))
  cases h : takePayload n s.host with
  | complete data rest =>
    obtain ⟨e, l⟩ := takePayload_complete h
    exact .inl ⟨data, rest, l, e, by simp [execUpdate, h]⟩
  | short => exact .inr (.inl (by simp [execUpdate, h]))
  | reset rest => exact .inr (.inr (.inl ⟨hreset h, rest, by simp [execUpdate, h]⟩))
  | interrupted => exact .inr (.inr (.inr (by simp [execUpdate, h])))

/-- UPDATE with its whole payload. -/
theorem execUpdate_of_payloads {s : State} {data : List Byte} {rest : List HostAction}
    (h : s.host = payloads data ++ rest) :
    execUpdate data.length s = .next ({ s with host := rest }.accept true fun s => s.update data) := by
  simp [execUpdate, h, takePayload_payloads]

/-- A live UPDATE with its whole payload. -/
theorem exec_update_of_live {s : State} {data : List Byte} {rest : List HostAction} (hl : s.Live)
    (h : s.host = payloads data ++ rest) :
    exec (.update data.length) s = .next ({ s with host := rest }.update data) := by
  rw [exec, execUpdate_of_payloads h, accept_of_live (by exact hl)]

/-! ## The block buffer -/

theorem getElem_bufZeroFill {bs : Nat} (buf : Vector Byte bs) (lo hi i : Nat) (h : i < bs) :
    (bufZeroFill buf lo hi)[i] = if lo ≤ i ∧ i < hi then 0x00 else buf[i] := by
  simp [bufZeroFill]

theorem getElem_bufWriteBytes {bs : Nat} (buf : Vector Byte bs) (start : Nat) (bytes : List Byte) (i : Nat) (h : i < bs) :
    (bufWriteBytes buf start bytes)[i] = if start ≤ i then bytes.getD (i - start) buf[i] else buf[i] := by
  simp [bufWriteBytes]

/-- A byte just written reads back. -/
theorem getElem_bufWrite_self {bs : Nat} (buf : Vector Byte bs) (i : Fin bs) (x : Byte) : (bufWrite buf i x)[i] = x := by
  simp [bufWrite]

/-- A write leaves every other byte alone. -/
theorem getElem_bufWrite_of_ne {bs : Nat} (buf : Vector Byte bs) (i j : Fin bs) (x : Byte) (h : j ≠ i) :
    (bufWrite buf i x)[j] = buf[j] := by
  simp [bufWrite, Fin.val_inj, Ne.symm h]

/-! ## The counters (R219, R220) -/

theorem countBits32_toNat {c : Ctx32} {n : Nat} (h : c.bits + 8 * n < 2 ^ 64) :
    (countBits32 c n).toNat = c.bitLength.toNat + 8 * n := by
  simp only [Ctx32.bits] at h
  simp only [countBits32, BitVec.toNat_add, BitVec.toNat_ofNat]
  omega

theorem countBitsLo_toNat (lo : Word64) (n : Nat) : (countBitsLo lo n).toNat = (lo.toNat + 8 * n) % 2 ^ 64 := by
  simp [countBitsLo, lowSum]

theorem countBitsHi_toNat {hi lo : Word64} {n : Nat} (h : hi.toNat * 2 ^ 64 + lo.toNat + 8 * n < 2 ^ 128) :
    (countBitsHi hi lo n).toNat = hi.toNat + if lo.toNat + 8 * n ≥ 2 ^ 64 then 1 else 0 := by
  have := hi.isLt
  by_cases hc : lo.toNat + 8 * n ≥ 2 ^ 64
  · rw [countBitsHi, lowSum, if_pos hc, if_pos hc, BitVec.toNat_add]
    exact Nat.mod_eq_of_lt (by simp; omega)
  · rw [countBitsHi, lowSum, if_neg hc, if_neg hc]
    simp

/-- The 128-bit counter counts 8 bits a byte (R45), for any payload an UPDATE can carry. -/
theorem countBits64_toNat {hi lo : Word64} {n : Nat} (hn : n < 2 ^ 24)
    (h : hi.toNat * 2 ^ 64 + lo.toNat + 8 * n < 2 ^ 128) :
    (countBitsHi hi lo n).toNat * 2 ^ 64 + (countBitsLo lo n).toNat = hi.toNat * 2 ^ 64 + lo.toNat + 8 * n := by
  rw [countBitsHi_toNat h, countBitsLo_toNat]
  have := lo.isLt
  split <;> omega

end Sys2Proof.Machine
end

