-- ==== Sys2Proof/Laws/Streaming.lean ====
section
/-! SUPPORT. UPDATE's loop: what one byte does, how loops compose, how many passes they make and what they leave in the
buffer. The lemmas hold for both cores at once. -/

namespace Sys2Proof.Machine

variable {w bs : Nat} {compress : Vector (BitVec w) 8 → Vector Byte bs → Vector (BitVec w) 8}

/-! ## One byte (R217, R218) -/

/-- Short of a full block, a byte goes into the buffer and nothing else happens. -/
theorem absorb_of_lt (r : Absorbing w bs) (x : Byte) (h : r.stream.bufferLen.val + 1 < bs) :
    r.absorb compress x = { r with stream := { r.stream with
      buf := r.stream.buf.set r.stream.bufferLen.val x, bufferLen := ⟨r.stream.bufferLen.val + 1, h⟩ } } := by
  simp [Absorbing.absorb, h, bufWrite]

/-- The byte that fills the block starts a pass, which empties the buffer. -/
theorem absorb_of_full (r : Absorbing w bs) (x : Byte) (h : r.stream.bufferLen.val + 1 = bs) :
    r.absorb compress x =
      { stream :=
          { H := compress r.stream.H (r.stream.buf.set r.stream.bufferLen.val x)
            buf := staleBuffer bs r.draws
            bufferLen := ⟨0, Nat.zero_lt_of_lt r.stream.bufferLen.isLt⟩ }
        passes := r.passes ++ [{ hin := r.stream.H, block := r.stream.buf.set r.stream.bufferLen.val x
                                 hout := compress r.stream.H (r.stream.buf.set r.stream.bufferLen.val x) }]
        draws := r.draws + 1 } := by
  simp [Absorbing.absorb, h, bufWrite]

/-- `buffer_len` has two cases: the byte fits, or it fills the block. -/
theorem bufferLen_cases (st : Stream w bs) : st.bufferLen.val + 1 < bs ∨ st.bufferLen.val + 1 = bs := by
  have := st.bufferLen.isLt
  omega

/-! ## The loop -/

@[simp] theorem absorbAll_nil (st : Stream w bs) (k : Nat) :
    absorbAll compress st k [] = { stream := st, passes := [], draws := k } := rfl

/-- Passes that were made before only stand in front. -/
theorem absorb_passes (r : Absorbing w bs) (ps : List (Pass w bs)) (x : Byte) :
    Absorbing.absorb compress { r with passes := ps ++ r.passes } x =
      { r.absorb compress x with passes := ps ++ (r.absorb compress x).passes } := by
  rcases bufferLen_cases r.stream with h | h
  · rw [absorb_of_lt _ _ h, absorb_of_lt _ _ (by exact h)]
  · rw [absorb_of_full _ _ h, absorb_of_full _ _ (by exact h)]
    simp

theorem foldl_absorb_passes (data : List Byte) (r : Absorbing w bs) (ps : List (Pass w bs)) :
    data.foldl (Absorbing.absorb compress) { r with passes := ps ++ r.passes } =
      { data.foldl (Absorbing.absorb compress) r with
        passes := ps ++ (data.foldl (Absorbing.absorb compress) r).passes } := by
  induction data generalizing r with
  | nil => rfl
  | cons x data ih => rw [List.foldl_cons, absorb_passes, ih, List.foldl_cons]

/-- A loop over two chunks is two loops, one after the other (R223). -/
theorem absorbAll_append (st : Stream w bs) (k : Nat) (a b : List Byte) :
    absorbAll compress st k (a ++ b) =
      { absorbAll compress (absorbAll compress st k a).stream (absorbAll compress st k a).draws b with
        passes := (absorbAll compress st k a).passes ++
          (absorbAll compress (absorbAll compress st k a).stream (absorbAll compress st k a).draws b).passes } := by
  simp only [absorbAll, List.foldl_append]
  rw [← foldl_absorb_passes]
  simp

theorem absorbAll_cons (st : Stream w bs) (k : Nat) (x : Byte) (b : List Byte) :
    absorbAll compress st k (x :: b) =
      { absorbAll compress (absorbAll compress st k [x]).stream (absorbAll compress st k [x]).draws b with
        passes := (absorbAll compress st k [x]).passes ++
          (absorbAll compress (absorbAll compress st k [x]).stream (absorbAll compress st k [x]).draws b).passes } :=
  absorbAll_append st k [x] b

theorem absorbAll_singleton (st : Stream w bs) (k : Nat) (x : Byte) :
    absorbAll compress st k [x] = Absorbing.absorb compress { stream := st, passes := [], draws := k } x := rfl

/-- The passes and the position of a loop (R224). -/
theorem absorbAll_count (data : List Byte) (st : Stream w bs) (k : Nat) :
    (absorbAll compress st k data).passes.length = (st.bufferLen.val + data.length) / bs ∧
      (absorbAll compress st k data).stream.bufferLen.val = (st.bufferLen.val + data.length) % bs := by
  induction data generalizing st k with
  | nil => simp [Nat.div_eq_of_lt, Nat.mod_eq_of_lt]
  | cons x data ih =>
    have hbs := st.bufferLen.isLt
    rw [absorbAll_cons, absorbAll_singleton]
    rcases bufferLen_cases st with h | h
    · rw [absorb_of_lt _ _ (by exact h)]
      simp only [List.nil_append, List.length_cons, ih]
      constructor <;> congr 1 <;> omega
    · rw [absorb_of_full _ _ (by exact h)]
      simp only [List.nil_append, List.length_cons, ih, List.length_append, List.length_nil]
      have e : st.bufferLen.val + (data.length + 1) = data.length + bs := by omega
      rw [e, Nat.add_div_right _ (by omega), Nat.add_mod_right]
      simp [Nat.add_comm]

/-- Every pass of a loop records what its core computes (R40, R218). -/
theorem absorbAll_sound (data : List Byte) (st : Stream w bs) (k : Nat) :
    ∀ p ∈ (absorbAll compress st k data).passes, p.hout = compress p.hin p.block := by
  induction data generalizing st k with
  | nil => simp
  | cons x data ih =>
    rw [absorbAll_cons, absorbAll_singleton]
    rcases bufferLen_cases st with h | h
    · rw [absorb_of_lt _ _ (by exact h)]
      simpa using ih _ _
    · rw [absorb_of_full _ _ (by exact h)]
      intro p hp
      simp only [List.nil_append, List.singleton_append, List.mem_cons] at hp
      rcases hp with rfl | hp
      · rfl
      · exact ih _ _ p hp

/-- A loop that does not fill the block only writes its bytes behind the valid ones (R217). -/
theorem absorbAll_within (data : List Byte) (st : Stream w bs) (k : Nat) (h : st.bufferLen.val + data.length < bs) :
    (absorbAll compress st k data).stream.H = st.H ∧ (absorbAll compress st k data).passes = [] ∧
      (absorbAll compress st k data).draws = k ∧
      (absorbAll compress st k data).stream.bufferLen.val = st.bufferLen.val + data.length ∧
      ∀ i : Fin bs, (absorbAll compress st k data).stream.buf[i] =
        if st.bufferLen.val ≤ i.val ∧ i.val < st.bufferLen.val + data.length
        then data.getD (i.val - st.bufferLen.val) 0 else st.buf[i] := by
  induction data generalizing st k with
  | nil =>
    refine ⟨rfl, rfl, rfl, rfl, fun i => ?_⟩
    rw [if_neg (by simp)]
    rfl
  | cons x data ih =>
    simp only [List.length_cons] at h
    have h1 : st.bufferLen.val + 1 < bs := by omega
    rw [absorbAll_cons, absorbAll_singleton, absorb_of_lt _ _ (by exact h1)]
    obtain ⟨e1, e2, e3, e4, e5⟩ := ih { st with
      buf := st.buf.set st.bufferLen.val x, bufferLen := ⟨st.bufferLen.val + 1, h1⟩ } k (by simp; omega)
    refine ⟨e1, by simp [e2], e3, by rw [e4]; simp [Nat.add_assoc, Nat.add_comm 1], fun i => ?_⟩
    rw [e5 i]
    simp only [Fin.getElem_fin, Vector.getElem_set, List.length_cons]
    by_cases hi : i.val = st.bufferLen.val
    · rw [if_neg (by omega), if_pos hi.symm, if_pos (by omega), show i.val - st.bufferLen.val = 0 by omega]
      rfl
    · rw [if_neg (Ne.symm hi)]
      by_cases hi2 : st.bufferLen.val + 1 ≤ i.val ∧ i.val < st.bufferLen.val + 1 + data.length
      · rw [if_pos hi2, if_pos (by omega),
          show i.val - st.bufferLen.val = (i.val - (st.bufferLen.val + 1)) + 1 by omega, List.getD_cons_succ]
      · rw [if_neg hi2, if_neg (by omega)]

/-! ## The message a stream has absorbed (R67) -/

theorem div_succ_of_lt {L l : Nat} (hl : l = L % bs) (h : l + 1 < bs) : (L + 1) / bs = L / bs := by
  have e : L + 1 = bs * (L / bs) + (l + 1) := by have := Nat.div_add_mod L bs; omega
  rw [e, Nat.mul_add_div (by omega), Nat.div_eq_of_lt h, Nat.add_zero]

theorem div_succ_of_full {L l : Nat} (hl : l = L % bs) (h : l + 1 = bs) : (L + 1) / bs = L / bs + 1 := by
  have e : L + 1 = bs * (L / bs) + bs := by have := Nat.div_add_mod L bs; omega
  rw [e, Nat.mul_add_div (by omega), Nat.div_self (by omega)]

theorem wholeBlocks_append_of_lt (msg data : List Byte) (h : (msg.length + data.length) / bs = msg.length / bs) :
    wholeBlocks bs (msg ++ data) = wholeBlocks bs msg := by
  simp only [wholeBlocks, List.length_append, h]
  refine List.map_congr_left fun k hk => ?_
  refine Vector.ext fun i hi => ?_
  rw [Vector.getElem_ofFn, Vector.getElem_ofFn]
  have hk : k < msg.length / bs := by simpa using hk
  have : k * bs + i < msg.length := by
    have h1 : (k + 1) * bs ≤ msg.length / bs * bs := Nat.mul_le_mul_right bs hk
    have h2 := Nat.div_mul_le_self msg.length bs
    rw [Nat.add_mul] at h1
    omega
  rw [List.getD_append _ _ _ _ this]

theorem wholeBlocks_append_of_succ (msg data : List Byte)
    (h : (msg.length + data.length) / bs = msg.length / bs + 1) :
    wholeBlocks bs (msg ++ data) =
      wholeBlocks bs msg ++
        [Vector.ofFn fun i => (msg ++ data).getD (msg.length / bs * bs + i.val) 0] := by
  simp only [wholeBlocks, List.length_append, h, List.range_succ, List.map_append, List.map_cons, List.map_nil]
  congr 1
  refine List.map_congr_left fun k hk => ?_
  refine Vector.ext fun i hi => ?_
  rw [Vector.getElem_ofFn, Vector.getElem_ofFn]
  have hk : k < msg.length / bs := by simpa using hk
  have : k * bs + i < msg.length := by
    have h1 : (k + 1) * bs ≤ msg.length / bs * bs := Nat.mul_le_mul_right bs hk
    have h2 := Nat.div_mul_le_self msg.length bs
    rw [Nat.add_mul] at h1
    omega
  rw [List.getD_append _ _ _ _ this]

@[simp] theorem wholeBlocks_nil : wholeBlocks bs [] = [] := by simp [wholeBlocks]

theorem absorbed_nil (iv : Vector (BitVec w) 8) (buf : Vector Byte bs) (h : 0 < bs) :
    Stream.Absorbed compress iv [] { H := iv, buf := buf, bufferLen := ⟨0, h⟩ } :=
  ⟨by simp [chainBlocks], by simp, fun i hi => by simp at hi⟩

/-- One absorbed byte is one more message byte. -/
theorem absorbed_absorb {iv : Vector (BitVec w) 8} {msg : List Byte} {r : Absorbing w bs}
    (h : r.stream.Absorbed compress iv msg) (x : Byte) :
    (r.absorb compress x).stream.Absorbed compress iv (msg ++ [x]) := by
  have hl := h.length
  have hbs := r.stream.bufferLen.isLt
  have hd := Nat.div_add_mod msg.length bs
  rw [Nat.mul_comm] at hd
  rcases bufferLen_cases r.stream with hc | hc
  · have hdiv := div_succ_of_lt hl hc
    rw [absorb_of_lt _ _ hc]
    refine ⟨?_, ?_, fun i hi => ?_⟩
    · rw [wholeBlocks_append_of_lt msg [x] (by simpa using hdiv)]
      exact h.chain
    · simp only [List.length_append, List.length_cons, List.length_nil, Nat.zero_add]
      rw [Nat.add_mod, ← hl, Nat.mod_eq_of_lt (a := 1) (by omega), Nat.mod_eq_of_lt hc]
    · simp only [List.length_append, List.length_cons, List.length_nil, Nat.zero_add, hdiv]
      simp only at hi
      simp only [Fin.getElem_fin, Vector.getElem_set]
      by_cases hi2 : i.val = r.stream.bufferLen.val
      · rw [if_pos hi2.symm, hi2, hl, hd]
        simp
      · rw [if_neg (Ne.symm hi2), List.getD_append _ _ _ _ (by omega)]
        exact h.tail i (by omega)
  · have hdiv := div_succ_of_full hl hc
    rw [absorb_of_full _ _ hc]
    refine ⟨?_, ?_, fun i hi => by simp at hi⟩
    · rw [wholeBlocks_append_of_succ msg [x] (by simpa using hdiv)]
      simp only [chainBlocks, List.foldl_append, List.foldl_cons, List.foldl_nil]
      rw [← chainBlocks, ← h.chain]
      congr 1
      refine Vector.ext fun i hi => ?_
      rw [Vector.getElem_set, Vector.getElem_ofFn]
      show _ = (msg ++ [x]).getD (msg.length / bs * bs + i) 0
      by_cases hi2 : i = r.stream.bufferLen.val
      · rw [if_pos hi2.symm, hi2, hl, hd]
        simp
      · rw [if_neg (Ne.symm hi2), List.getD_append _ _ _ _ (by omega)]
        exact h.tail ⟨i, hi⟩ (by simp; omega)
    · simp only [List.length_append, List.length_cons, List.length_nil, Nat.zero_add]
      rw [show msg.length + 1 = msg.length / bs * bs + bs by omega]
      simp

/-- A loop over `data` appends `data` to the message. -/
theorem absorbed_absorbAll {iv : Vector (BitVec w) 8} (data : List Byte) {msg : List Byte} {st : Stream w bs} (k : Nat)
    (h : st.Absorbed compress iv msg) :
    (absorbAll compress st k data).stream.Absorbed compress iv (msg ++ data) := by
  induction data generalizing msg st k with
  | nil => simpa using h
  | cons x data ih =>
    rw [absorbAll_cons, List.append_cons]
    exact ih _ (absorbed_absorb (r := { stream := st, passes := [], draws := k }) h x)

end Sys2Proof.Machine
end

