-- ==== Sys2Proof/Laws/Finalize.lean ====
section
/-! SUPPORT. What FINALIZE's passes are: one block or two, byte by byte, and that they are the last blocks of the padded
message (spec/44_finalize.md rules R251 to R256, R261, R263). The lemmas hold for both cores at once. -/

namespace Sys2Proof.Machine

variable {w bs : Nat} {compress : Vector (BitVec w) 8 → Vector Byte bs → Vector (BitVec w) 8}

/-- The padding fits in the block: one pass (R261). -/
theorem finalPasses_oneBlock (st : Stream w bs) (field : List Byte) (h : st.bufferLen.val < bs - field.length) :
    ∃ B : Vector Byte bs,
      (∀ i : Fin bs, i.val < st.bufferLen.val → B[i] = st.buf[i]) ∧ B[st.bufferLen] = 0x80 ∧
      (∀ i : Fin bs, st.bufferLen.val < i.val → i.val < bs - field.length → B[i] = 0x00) ∧
      (∀ i : Fin bs, bs - field.length ≤ i.val → B[i] = field.getD (i.val - (bs - field.length)) 0) ∧
      (st.finalPasses compress field).H = compress st.H B ∧
      (st.finalPasses compress field).passes = [⟨st.H, B, compress st.H B⟩] := by
  have hp : ¬ st.bufferLen.val + 1 > bs - field.length := by omega
  refine ⟨(st.terminate compress field.length).lastBlock field, fun i hi => ?_, ?_, fun i hi hi' => ?_, fun i hi => ?_,
    ?_, ?_⟩
  · simp only [Fin.getElem_fin, Padding.lastBlock, getElem_bufWriteBytes, getElem_bufZeroFill, Stream.terminate, if_neg hp]
    rw [if_neg (by omega), if_neg (by omega)]
    exact getElem_bufWrite_of_ne _ _ i _ (by intro e; subst e; omega)
  · simp only [Fin.getElem_fin, Padding.lastBlock, getElem_bufWriteBytes, getElem_bufZeroFill, Stream.terminate, if_neg hp]
    rw [if_neg (by omega), if_neg (by omega)]
    exact getElem_bufWrite_self _ st.bufferLen _
  · simp only [Fin.getElem_fin, Padding.lastBlock, getElem_bufWriteBytes, getElem_bufZeroFill, Stream.terminate, if_neg hp]
    rw [if_neg (by omega), if_pos (by omega)]
  · simp only [Fin.getElem_fin, Padding.lastBlock, getElem_bufWriteBytes]
    have := i.isLt
    rw [if_pos hi, List.getD_eq_getElem _ _ (by omega), List.getD_eq_getElem _ _ (by omega)]
  · simp [Stream.finalPasses, Stream.terminate, hp]
  · simp [Stream.finalPasses, Stream.terminate, hp]

/-- The padding does not fit: two passes (R261). -/
theorem finalPasses_twoBlocks (st : Stream w bs) (field : List Byte) (hf : field.length ≤ bs)
    (h : bs - field.length ≤ st.bufferLen.val) :
    ∃ B B' : Vector Byte bs,
      (∀ i : Fin bs, i.val < st.bufferLen.val → B[i] = st.buf[i]) ∧ B[st.bufferLen] = 0x80 ∧
      (∀ i : Fin bs, st.bufferLen.val < i.val → B[i] = 0x00) ∧
      (∀ i : Fin bs, i.val < bs - field.length → B'[i] = 0x00) ∧
      (∀ i : Fin bs, bs - field.length ≤ i.val → B'[i] = field.getD (i.val - (bs - field.length)) 0) ∧
      (st.finalPasses compress field).H = compress (compress st.H B) B' ∧
      (st.finalPasses compress field).passes =
        [⟨st.H, B, compress st.H B⟩, ⟨compress st.H B, B', compress (compress st.H B) B'⟩] := by
  have hp : st.bufferLen.val + 1 > bs - field.length := by omega
  refine ⟨bufZeroFill (bufWrite st.buf st.bufferLen 0x80) (st.bufferLen.val + 1) bs,
    (st.terminate compress field.length).lastBlock field, fun i hi => ?_, ?_, fun i hi => ?_, fun i hi => ?_,
    fun i hi => ?_, ?_, ?_⟩
  · simp only [Fin.getElem_fin, getElem_bufZeroFill]
    rw [if_neg (by omega)]
    exact getElem_bufWrite_of_ne _ _ i _ (by intro e; subst e; omega)
  · simp only [Fin.getElem_fin, getElem_bufZeroFill]
    rw [if_neg (by omega)]
    exact getElem_bufWrite_self _ st.bufferLen _
  · simp only [Fin.getElem_fin, getElem_bufZeroFill]
    rw [if_pos (by omega)]
  · simp only [Fin.getElem_fin, Padding.lastBlock, getElem_bufWriteBytes, getElem_bufZeroFill, Stream.terminate, if_pos hp]
    rw [if_neg (by omega), if_pos (by omega)]
  · simp only [Fin.getElem_fin, Padding.lastBlock, getElem_bufWriteBytes]
    have := i.isLt
    rw [if_pos hi, List.getD_eq_getElem _ _ (by omega), List.getD_eq_getElem _ _ (by omega)]
  · simp [Stream.finalPasses, Stream.terminate, hp]
  · simp [Stream.finalPasses, Stream.terminate, hp]

/-- Every pass of FINALIZE records what its core computes (R40, R252, R256). -/
theorem finalPasses_sound (st : Stream w bs) (field : List Byte) :
    ∀ p ∈ (st.finalPasses compress field).passes, p.hout = compress p.hin p.block := by
  intro p hp
  by_cases h : st.bufferLen.val + 1 > bs - field.length
  · simp only [Stream.finalPasses, Stream.terminate, h, if_true] at hp
    simp at hp
    rcases hp with rfl | rfl <;> rfl
  · simp only [Stream.finalPasses, Stream.terminate, h, if_false] at hp
    simp at hp
    rw [hp]

/-- The number of FINALIZE's passes (R261). -/
theorem finalPasses_count (st : Stream w bs) (field : List Byte) :
    (st.finalPasses compress field).passes.length = if bs - field.length ≤ st.bufferLen.val then 2 else 1 := by
  by_cases h : bs - field.length ≤ st.bufferLen.val
  · simp [Stream.finalPasses, Stream.terminate, show st.bufferLen.val + 1 > bs - field.length by omega, h]
  · simp [Stream.finalPasses, Stream.terminate, show ¬ st.bufferLen.val + 1 > bs - field.length by omega, h]

/-- The last passes of FINALIZE compress the last blocks of the padded message (R263). -/
theorem finalPasses_paddedMessage {iv : Vector (BitVec w) 8} {msg : List Byte} {st : Stream w bs} {lf : Nat}
    (h : st.Absorbed compress iv msg) (hlf : lf < bs) (field : List Byte)
    (hfield : field = bytesBE (BitVec.ofNat (8 * lf) (8 * msg.length))) :
    (st.finalPasses compress field).H = chainBlocks compress iv (wholeBlocks bs (paddedMessage bs lf msg)) := by
  have hfl : field.length = lf := by rw [hfield]; simp
  have hl := h.length
  have hlt := st.bufferLen.isLt
  have hd : msg.length / bs * bs + st.bufferLen.val = msg.length := by
    rw [hl, Nat.mul_comm]; exact Nat.div_add_mod _ _
  have hm : (msg.length + 1 + lf) % bs = (st.bufferLen.val + 1 + lf) % bs := by
    rw [← hd, Nat.add_assoc, Nat.add_assoc, Nat.mul_add_mod_self_right, Nat.add_assoc]
  have hbuf := h.tail
  by_cases hc : st.bufferLen.val < bs - field.length
  · obtain ⟨B, b1, b2, b3, b4, hH, -⟩ := finalPasses_oneBlock (compress := compress) st field hc
    rw [hH, h.chain]
    have hz : (bs - (msg.length + 1 + lf) % bs) % bs = bs - lf - st.bufferLen.val - 1 := by
      rw [hm]
      by_cases e : st.bufferLen.val + 1 + lf = bs
      · rw [e, Nat.mod_self, Nat.sub_zero, Nat.mod_self]; omega
      · rw [Nat.mod_eq_of_lt (a := st.bufferLen.val + 1 + lf) (by omega), Nat.mod_eq_of_lt (by omega)]; omega
    rw [paddedMessage, hz, ← hfield, wholeBlocks_append_of_succ, chainBlocks, chainBlocks, List.foldl_append]
    · simp only [List.foldl_cons, List.foldl_nil]
      congr 1
      refine Vector.ext fun i hi => ?_
      rw [Vector.getElem_ofFn]
      show _ = List.getD _ (msg.length / bs * bs + i) 0
      rcases Nat.lt_trichotomy i st.bufferLen.val with hi2 | hi2 | hi2
      · rw [List.getD_append _ _ _ _ (by omega), ← hbuf ⟨i, hi⟩ hi2]
        exact b1 ⟨i, hi⟩ hi2
      · subst hi2
        rw [List.getD_append_right _ _ _ _ (by omega), hd, Nat.sub_self, List.getD_cons_zero]
        exact b2
      · rw [List.getD_append_right _ _ _ _ (by omega),
          show msg.length / bs * bs + i - msg.length = (i - st.bufferLen.val - 1) + 1 by omega, List.getD_cons_succ]
        by_cases hi3 : i < bs - lf
        · rw [List.getD_append _ _ _ _ (by simp; omega), List.getD_replicate _ (by omega)]
          exact b3 ⟨i, hi⟩ hi2 (by simp; omega)
        · rw [List.getD_append_right _ _ _ _ (by simp; omega)]
          simp only [List.length_replicate]
          rw [show i - st.bufferLen.val - 1 - (bs - lf - st.bufferLen.val - 1) = i - (bs - field.length) by omega]
          exact b4 ⟨i, hi⟩ (by simp; omega)
    · simp only [List.length_cons, List.length_append, List.length_replicate, hfl]
      rw [show msg.length + (bs - lf - st.bufferLen.val - 1 + lf + 1) = bs * (msg.length / bs) + bs by
        rw [Nat.mul_comm]; omega, Nat.mul_add_div (by omega), Nat.div_self (by omega)]
  · obtain ⟨B, B', b1, b2, b3, b4, b5, hH, -⟩ :=
      finalPasses_twoBlocks (compress := compress) st field (by omega) (by omega)
    rw [hH, h.chain]
    have hz : (bs - (msg.length + 1 + lf) % bs) % bs = (bs - st.bufferLen.val - 1) + (bs - lf) := by
      have hm2 : (st.bufferLen.val + 1 + lf) % bs = st.bufferLen.val + 1 + lf - bs := by
        rw [Nat.mod_eq_sub_mod (by omega), Nat.mod_eq_of_lt (by omega)]
      rw [hm, hm2, Nat.mod_eq_of_lt (by omega)]
      omega
    have hsplit : paddedMessage bs lf msg =
        (msg ++ 0x80 :: List.replicate (bs - st.bufferLen.val - 1) 0x00) ++ (List.replicate (bs - lf) 0x00 ++ field) := by
      rw [paddedMessage, hz, ← hfield, ← List.replicate_append_replicate]
      simp only [List.append_assoc, List.cons_append]
    have hlen : (msg ++ 0x80 :: List.replicate (bs - st.bufferLen.val - 1) (0x00 : Byte)).length =
        msg.length / bs * bs + bs := by
      simp; omega
    rw [hsplit, wholeBlocks_append_of_succ _ (List.replicate (bs - lf) 0x00 ++ field), wholeBlocks_append_of_succ msg]
    · simp only [chainBlocks, List.foldl_append, List.foldl_cons, List.foldl_nil]
      congr 1
      · congr 1
        refine Vector.ext fun i hi => ?_
        rw [Vector.getElem_ofFn]
        show _ = List.getD _ (msg.length / bs * bs + i) 0
        rcases Nat.lt_trichotomy i st.bufferLen.val with hi2 | hi2 | hi2
        · rw [List.getD_append _ _ _ _ (by omega), ← hbuf ⟨i, hi⟩ hi2]
          exact b1 ⟨i, hi⟩ hi2
        · subst hi2
          rw [List.getD_append_right _ _ _ _ (by omega), hd, Nat.sub_self, List.getD_cons_zero]
          exact b2
        · rw [List.getD_append_right _ _ _ _ (by omega),
            show msg.length / bs * bs + i - msg.length = (i - st.bufferLen.val - 1) + 1 by omega, List.getD_cons_succ,
            List.getD_replicate _ (by omega)]
          exact b3 ⟨i, hi⟩ hi2
      · refine Vector.ext fun i hi => ?_
        rw [Vector.getElem_ofFn, hlen, Nat.add_div_right _ (by omega), Nat.mul_div_cancel _ (by omega)]
        show _ = List.getD _ ((msg.length / bs + 1) * bs + i) 0
        rw [List.getD_append_right _ _ _ _ (by rw [hlen, Nat.add_mul]; omega), hlen, Nat.add_mul,
          show msg.length / bs * bs + 1 * bs + i - (msg.length / bs * bs + bs) = i by omega]
        by_cases hi3 : i < bs - lf
        · rw [List.getD_append _ _ _ _ (by simp; omega), List.getD_replicate _ (by omega)]
          exact b4 ⟨i, hi⟩ (by simp; omega)
        · rw [List.getD_append_right _ _ _ _ (by simp; omega)]
          simp only [List.length_replicate]
          rw [show i - (bs - lf) = i - (bs - field.length) by omega]
          exact b5 ⟨i, hi⟩ (by simp; omega)
    · simp only [List.length_cons, List.length_replicate]
      rw [show msg.length + (bs - st.bufferLen.val - 1 + 1) = bs * (msg.length / bs) + bs by
        rw [Nat.mul_comm]; omega, Nat.mul_add_div (by omega), Nat.div_self (by omega)]
    · rw [hlen]
      simp only [List.length_append, List.length_replicate, hfl]
      rw [show msg.length / bs * bs + bs + (bs - lf + lf) = bs * (msg.length / bs + 1) + bs by
        rw [Nat.mul_add, Nat.mul_comm]; omega, Nat.mul_add_div (by omega), Nat.div_self (by omega),
        Nat.add_div_right _ (by omega), Nat.mul_div_cancel _ (by omega)]

/-! ## Serialization and the length field (R254, R257) -/

theorem length_serialize (H : Vector (BitVec w) 8) : (serialize H).length = 8 * (w / 8) := by
  simp [serialize, List.length_flatMap]
  omega

theorem getD_flatMap_bytesBE (words : List (BitVec w)) {k j : Nat} (hk : k < words.length) (hj : j < w / 8) :
    (words.flatMap bytesBE).getD (w / 8 * k + j) 0 = (bytesBE words[k]).getD j 0 := by
  induction words generalizing k with
  | nil => simp at hk
  | cons x words ih =>
    rw [List.flatMap_cons]
    cases k with
    | zero =>
      rw [List.getD_append _ _ _ _ (by simpa using hj)]
      simp
    | succ k =>
      rw [List.getD_append_right _ _ _ _ (by simp [Nat.mul_add]; omega)]
      simp only [length_bytesBE, List.getElem_cons_succ]
      rw [show w / 8 * (k + 1) + j - w / 8 = w / 8 * k + j by rw [Nat.mul_add]; omega]
      exact ih (by simpa using hk)

/-- Byte `j` of chaining word `k` in the digest. -/
theorem getD_serialize_toNat (H : Vector (BitVec w) 8) (k : Fin 8) {j : Nat} (hj : j < w / 8) :
    ((serialize H).getD (w / 8 * k.val + j) 0).toNat = H[k].toNat / 2 ^ (w - 8 * (j + 1)) % 2 ^ 8 := by
  rw [serialize, getD_flatMap_bytesBE _ (by simp) hj, getD_bytesBE_toNat _ hj]
  simp

/-- The 16-byte length field of Ctx64 is the 128-bit counter, most significant byte first (R254). -/
theorem lengthField64 {c : Ctx64} {n : Nat} (h : c.bits = n) :
    bytesBE c.bitLengthHi ++ bytesBE c.bitLengthLo = bytesBE (BitVec.ofNat (8 * 16) n) := by
  have e : BitVec.ofNat (8 * 16) n = c.bitLengthHi ++ c.bitLengthLo := by
    apply BitVec.eq_of_toNat_eq
    rw [BitVec.toNat_append, BitVec.toNat_ofNat, ← h, Nat.shiftLeft_eq, Nat.mul_comm c.bitLengthHi.toNat,
      ← Nat.two_pow_add_eq_or_of_lt c.bitLengthLo.isLt, Ctx64.bits, Nat.mul_comm c.bitLengthHi.toNat]
    apply Nat.mod_eq_of_lt
    have := c.bitLengthHi.isLt
    have := c.bitLengthLo.isLt
    omega
  rw [e]
  refine List.ext_getElem (by simp) fun i h1 h2 => ?_
  rw [getElem_bytesBE]
  rw [length_bytesBE] at h2
  refine BitVec.eq_of_getLsbD_eq fun j hj => ?_
  rw [BitVec.getLsbD_extractLsb', BitVec.getLsbD_append]
  by_cases hi : i < 8
  · rw [List.getElem_append_left (by simpa using hi), getElem_bytesBE, BitVec.getLsbD_extractLsb', if_neg (by omega)]
    congr 2
    omega
  · rw [List.getElem_append_right (by simp; omega), getElem_bytesBE, BitVec.getLsbD_extractLsb']
    simp only [length_bytesBE]
    rw [if_pos (by omega)]
    congr 2
    omega

end Sys2Proof.Machine
end

