-- ==== Sys2Proof/Laws/PerInstr.lean ====
section
/-! SUPPORT. Statements made per command. Family `EncodesToRow`: the word of a well-formed command has the fixed bits of
its row of spec/opcode_table.json (its `match` under its `mask`). -/

namespace Sys2Proof.Laws

/-- The `mask` of a command's row. -/
def rowMask : Instr → Word32
  | .init256 => 0xFFFFFFFF
  | .init512 => 0xFFFFFFFF
  | .init384 => 0xFFFFFFFF
  | .update _ => 0xFF000000
  | .finalize => 0xFFFFFFFF

/-- The `match` of a command's row. -/
def rowMatch : Instr → Word32
  | .init256 => 0x01000000
  | .init512 => 0x01000001
  | .init384 => 0x01000002
  | .update _ => 0x02000000
  | .finalize => 0x03000000

/-- The word of the command fits its row. -/
def EncodesToRow.Statement (i : Instr) : Prop := i.wellFormed = true → encode i &&& rowMask i = rowMatch i

theorem EncodesToRow.init256 : EncodesToRow.Statement .init256 := fun _ => by decide

theorem EncodesToRow.init512 : EncodesToRow.Statement .init512 := fun _ => by decide

theorem EncodesToRow.init384 : EncodesToRow.Statement .init384 := fun _ => by decide

theorem EncodesToRow.update (n : Nat) : EncodesToRow.Statement (.update n) := fun _ => by
  refine BitVec.eq_of_getLsbD_eq fun i hi => ?_
  simp only [encode, rowMask, rowMatch, BitVec.getLsbD_and, BitVec.getLsbD_append]
  by_cases h : i < 24
  · have low : ∀ j : Fin 24, (0xFF000000#32).getLsbD j.val = false ∧ (0x02000000#32).getLsbD j.val = false := by decide
    simp [low ⟨i, h⟩]
  · have high : ∀ j : Fin 8,
        ((0x02#8).getLsbD j.val && (0xFF000000#32).getLsbD (j.val + 24)) = (0x02000000#32).getLsbD (j.val + 24) := by
      decide
    have := high ⟨i - 24, by omega⟩
    simpa [h, show i - 24 + 24 = i by omega] using this

theorem EncodesToRow.finalize : EncodesToRow.Statement .finalize := fun _ => by decide

end Sys2Proof.Laws
end

