-- ==== Sys2Proof/Laws/Step.lean ====
section
/-! SUPPORT. Everything a command and a step can do, once: the inversion lemmas from which whole-machine rules follow. -/

namespace Sys2Proof.Machine

/-- The context an INIT of `v` makes (R213 to R215). -/
def initialContext : Variant → Context
  | .v256 => .ctx32 Ctx32.init
  | .v512 => .ctx64 (Ctx64.init iv512)
  | .v384 => .ctx64 (Ctx64.init iv384)

theorem exec_initOf (v : Variant) (s : State) :
    exec (initOf v) s = .next (s.accept false fun s => s.initialize v (initialContext v)) := by
  cases v <;> rfl

/-- UPDATE on a Ctx32 with room. -/
theorem update_of_ctx32 {s : State} {c : Ctx32} (hc : s.ctx = .ctx32 c) {data : List Byte}
    (h : s.HasRoom data.length) :
    s.update data =
      { s with
        phase := .accumulating
        ctx := .ctx32 { (absorbAll compress32 c.toStream s.draws data).stream with bitLength := countBits32 c data.length }
        trace := s.trace ++ (absorbAll compress32 c.toStream s.draws data).passes.map Event.compress32
        draws := (absorbAll compress32 c.toStream s.draws data).draws }.respond .ok [] := by
  have h' : hasRoom32 c data.length = true := by
    simpa [hasRoom32, State.HasRoom, hc, Context.bits, Context.bound] using h
  simp [State.update, hc, State.update32, h']

/-- UPDATE on a Ctx64 with room. -/
theorem update_of_ctx64 {s : State} {c : Ctx64} (hc : s.ctx = .ctx64 c) {data : List Byte}
    (h : s.HasRoom data.length) :
    s.update data =
      { s with
        phase := .accumulating
        ctx := .ctx64
          { (absorbAll compress64 c.toStream s.draws data).stream with
            bitLengthHi := countBitsHi c.bitLengthHi c.bitLengthLo data.length
            bitLengthLo := countBitsLo c.bitLengthLo data.length }
        trace := s.trace ++ (absorbAll compress64 c.toStream s.draws data).passes.map Event.compress64
        draws := (absorbAll compress64 c.toStream s.draws data).draws }.respond .ok [] := by
  have h' : hasRoom64 c data.length = true := by
    simpa [hasRoom64, State.HasRoom, hc, Context.bits, Context.bound] using h
  simp [State.update, hc, State.update64, h']

/-- UPDATE without room (R221, R297). -/
theorem update_of_no_room {s : State} {data : List Byte} (h : ¬ s.HasRoom data.length) :
    s.update data = s.raiseFault .errLengthOverflow := by
  cases hc : s.ctx with
  | ctx32 c =>
    have h' : hasRoom32 c data.length = false := by
      simpa [hasRoom32, State.HasRoom, hc, Context.bits, Context.bound] using h
    simp [State.update, hc, State.update32, h']
  | ctx64 c =>
    have h' : hasRoom64 c data.length = false := by
      simpa [hasRoom64, State.HasRoom, hc, Context.bits, Context.bound] using h
    simp [State.update, hc, State.update64, h']

/-- What every UPDATE leaves alone, in both shapes and with or without room. -/
theorem update_frame (s : State) (data : List Byte) :
    (s.update data).variant = s.variant ∧ (s.update data).host = s.host ∧ (s.update data).pending = s.pending := by
  by_cases hr : s.HasRoom data.length
  · cases hc : s.ctx with
    | ctx32 c => rw [update_of_ctx32 hc hr]; exact ⟨rfl, rfl, rfl⟩
    | ctx64 c => rw [update_of_ctx64 hc hr]; exact ⟨rfl, rfl, rfl⟩
  · rw [update_of_no_room hr]; exact ⟨rfl, rfl, rfl⟩

/-- UPDATE's last action (R222). -/
theorem update_phase {s : State} {data : List Byte} (hr : s.HasRoom data.length) :
    (s.update data).phase = .accumulating := by
  cases hc : s.ctx with
  | ctx32 c => rw [update_of_ctx32 hc hr]; rfl
  | ctx64 c => rw [update_of_ctx64 hc hr]; rfl

@[simp] theorem passCount_append (a b : List Event) : passCount (a ++ b) = passCount a + passCount b := by
  simp [passCount]

@[simp] theorem passCount_map_compress32 (passes : List (Pass 32 Config.blockBytes32)) :
    passCount (passes.map Event.compress32) = passes.length := by
  simp [passCount, List.countP_map, Function.comp_def, Event.isPass]

@[simp] theorem passCount_map_compress64 (passes : List (Pass 64 Config.blockBytes64)) :
    passCount (passes.map Event.compress64) = passes.length := by
  simp [passCount, List.countP_map, Function.comp_def, Event.isPass]

/-- UPDATE puts passes and one response without data at the end of the trace (R99, R218). -/
theorem update_response (s : State) (data : List Byte) : ∃ (passes : List Event) (status : Status),
    (s.update data).trace = s.trace ++ passes ++ [.response status []] ∧ (∀ e ∈ passes, e.isPass = true) ∧
      (s.update data).rsp = s.rsp ++ [status.code] := by
  by_cases hr : s.HasRoom data.length
  · cases hc : s.ctx with
    | ctx32 c => rw [update_of_ctx32 hc hr]; exact ⟨_, .ok, rfl, by simp [Event.isPass], rfl⟩
    | ctx64 c => rw [update_of_ctx64 hc hr]; exact ⟨_, .ok, rfl, by simp [Event.isPass], rfl⟩
  · rw [update_of_no_room hr]
    exact ⟨[], .errLengthOverflow, by simp [State.raiseFault, State.respond], by simp, rfl⟩

/-- What FINALIZE does, whatever the context: passes, one response, and the zeroized context (R256, R259, R260). -/
theorem finalize_frame (s : State) : ∃ (passes : List Event) (digest : List Byte),
    (∀ e ∈ passes, e.isPass = true) ∧
      s.finalize = { s with
        phase := .finalized
        variant := .v256
        ctx := .ctx32 Ctx32.zero
        trace := s.trace ++ passes ++ [.response .ok digest]
        rsp := s.rsp ++ 0x00 :: digest } := by
  cases hc : s.ctx with
  | ctx32 c =>
    refine ⟨_, _, ?_, by simp only [State.finalize, hc]; rfl⟩
    simp [Event.isPass]
  | ctx64 c =>
    refine ⟨_, _, ?_, by simp only [State.finalize, hc]; rfl⟩
    simp [Event.isPass]

/-- Everything a command can do. -/
theorem exec_cases {i : Instr} {s t : State} (h : exec i s = .next t) :
    ∃ rest : List HostAction,
      (s.phase = .faulted ∧ t = { s with host := rest }.respond .errFaulted []) ∨
      (s.phase ≠ .faulted ∧ ∃ code : Status, code ≠ .ok ∧ code ≠ .errFaulted ∧
        t = { s with host := rest }.raiseFault code) ∨
      (s.phase ≠ .faulted ∧ ∃ v, i = initOf v ∧ t = { s with host := rest }.initialize v (initialContext v)) ∨
      (s.Live ∧ ∃ data, i = .update data.length ∧ s.host = payloads data ++ rest ∧ s.HasRoom data.length ∧
        t = { s with host := rest }.update data) ∨
      (s.Live ∧ i = .finalize ∧ t = { s with host := rest }.finalize) ∨
      (∃ n, i = .update n ∧ t = { s with pending := some n }) ∨
      (.reset ∈ s.host ∧ t = { s with host := rest }.applyReset) := by
  have initCase : ∀ v, exec (initOf v) s = .next t →
      (s.phase = .faulted ∧ t = s.respond .errFaulted []) ∨
        (s.phase ≠ .faulted ∧ t = s.initialize v (initialContext v)) := by
    intro v hv
    rw [exec_initOf, Host.Outcome.next.injEq] at hv
    subst hv
    by_cases hp : s.phase = .faulted
    · exact .inl ⟨hp, accept_of_faulted hp _ _⟩
    · exact .inr ⟨hp, accept_false_of_not_faulted hp _⟩
  cases i with
  | init256 =>
    refine ⟨s.host, ?_⟩
    rcases initCase .v256 h with ⟨hp, e⟩ | ⟨hp, e⟩
    · exact .inl ⟨hp, e⟩
    · exact .inr (.inr (.inl ⟨hp, .v256, rfl, e⟩))
  | init512 =>
    refine ⟨s.host, ?_⟩
    rcases initCase .v512 h with ⟨hp, e⟩ | ⟨hp, e⟩
    · exact .inl ⟨hp, e⟩
    · exact .inr (.inr (.inl ⟨hp, .v512, rfl, e⟩))
  | init384 =>
    refine ⟨s.host, ?_⟩
    rcases initCase .v384 h with ⟨hp, e⟩ | ⟨hp, e⟩
    · exact .inl ⟨hp, e⟩
    · exact .inr (.inr (.inl ⟨hp, .v384, rfl, e⟩))
  | finalize =>
    refine ⟨s.host, ?_⟩
    simp only [exec, execFinalize, Host.Outcome.next.injEq] at h
    subst h
    rcases accept_cases s true State.finalize with ⟨hp, e⟩ | ⟨hp, e, hl⟩ | ⟨hp, -, e⟩ | ⟨hp, -, e⟩
    · exact .inl ⟨hp, e⟩
    · exact .inr (.inr (.inr (.inr (.inl ⟨by simpa using hl, rfl, e⟩))))
    · exact .inr (.inl ⟨by simp [hp], _, by simp, by simp, e⟩)
    · exact .inr (.inl ⟨by simp [hp], _, by simp, by simp, e⟩)
  | update n =>
    simp only [exec] at h
    rcases execUpdate_cases n s with ⟨data, rest, rfl, hh, e⟩ | e | ⟨hm, rest, e⟩ | e
    · rw [e, Host.Outcome.next.injEq] at h
      subst h
      refine ⟨rest, ?_⟩
      rcases accept_cases { s with host := rest } true (fun s => s.update data) with
        ⟨hp, e⟩ | ⟨hp, e, hl⟩ | ⟨hp, -, e⟩ | ⟨hp, -, e⟩
      · exact .inl ⟨hp, e⟩
      · have hl : s.Live := by simpa using hl
        by_cases hr : s.HasRoom data.length
        · exact .inr (.inr (.inr (.inl ⟨hl, data, rfl, hh, hr, e⟩)))
        · refine .inr (.inl ⟨hp, .errLengthOverflow, by simp, by simp, ?_⟩)
          rw [e, update_of_no_room (by exact hr)]
      · exact .inr (.inl ⟨by simp at hp; simp [hp], _, by simp, by simp, e⟩)
      · exact .inr (.inl ⟨by simp at hp; simp [hp], _, by simp, by simp, e⟩)
    · rw [e, Host.Outcome.next.injEq] at h
      exact ⟨s.host, .inr (.inr (.inr (.inr (.inr (.inl ⟨n, rfl, h.symm⟩)))))⟩
    · rw [e, Host.Outcome.next.injEq] at h
      exact ⟨rest, .inr (.inr (.inr (.inr (.inr (.inr ⟨hm, h.symm⟩)))))⟩
    · rw [e] at h
      simp at h

@[simp] theorem payloadLength_update (n : Nat) : payloadLength (.command (.update n)) = n := rfl

/-- Only UPDATE takes a payload (R98). -/
theorem payloadLength_of_not_update {d : Decoded} (h : ∀ n, d ≠ .command (.update n)) : payloadLength d = 0 := by
  cases d with
  | illegal => rfl
  | command i =>
    cases i with
    | update n => exact absurd rfl (h n)
    | init256 => rfl
    | init512 => rfl
    | init384 => rfl
    | finalize => rfl

@[simp] theorem discardPayload_zero (rest : List HostAction) : discardPayload 0 rest = rest := by
  cases rest <;> rfl

/-- Everything a step can do. -/
theorem step_cases {s t : State} (h : step s = .next t) :
    (∃ n, s.pending = some n ∧ exec (.update n) { s with pending := none } = .next t) ∨
    (s.pending = none ∧
      ((s.host = [] ∧ t = s) ∨
      (∃ cmd rest i, s.host = .command cmd :: rest ∧ decode cmd = .command i ∧
        exec i { s with host := rest } = .next t) ∨
      (∃ cmd rest e, s.host = .command cmd :: rest ∧ decode cmd = .illegal e ∧
        t = { s with host := rest }.rejectWord e) ∨
      (∃ rest, s.host = .reset :: rest ∧ t = { s with host := rest }.applyReset) ∨
      (∃ cmd data rest, s.host = .resetDuring cmd data :: rest ∧ data.length ≤ payloadLength (decode cmd) ∧
        t = { s with
          host := discardPayload (payloadLength (decode cmd) - data.length) rest }.applyReset))) := by
  unfold step fetch at h
  cases hp : s.pending with
  | some n => exact .inl ⟨n, rfl, by simpa [hp] using h⟩
  | none =>
    refine .inr ⟨rfl, ?_⟩
    rw [hp] at h
    cases hh : s.host with
    | nil => exact .inl ⟨rfl, by simpa [hh] using h.symm⟩
    | cons a rest =>
      cases a with
      | command cmd =>
        cases hd : decode cmd with
        | command i => exact .inr (.inl ⟨cmd, rest, i, rfl, hd, by simpa [hh, hd] using h⟩)
        | illegal e => exact .inr (.inr (.inl ⟨cmd, rest, e, rfl, hd, by simpa [hh, hd] using h.symm⟩))
      | payload x => simp [hh] at h
      | reset => exact .inr (.inr (.inr (.inl ⟨rest, rfl, by simpa [hh] using h.symm⟩)))
      | resetDuring cmd data =>
        by_cases hl : data.length ≤ payloadLength (decode cmd)
        · exact .inr (.inr (.inr (.inr ⟨cmd, data, rest, rfl, hl, by simpa [hh, hl] using h.symm⟩)))
        · simp [hh, hl] at h

end Sys2Proof.Machine
end

