-- ==== Sys2Proof/Tests/Slice0.lean ====
section
/-! SUPPORT. The model's own tests, with expected values from spec/95_test_vectors.md (each docstring names its vector),
and for every obligation that has hypotheses a witness: a concrete state and operands that meet all of them. -/

namespace Sys2Proof.Tests

open Sys2Proof.Machine

/-! ## Helpers -/

/-- A field of the next state, where there is one. -/
def nextField {α : Type} (f : State → α) : Host.Outcome State Fault Refusal → Option α
  | .next t => some (f t)
  | .fault _ => none
  | .refused _ => none

/-- The stream after a message, built from the definition of what it holds (R67). -/
def streamOf {w bs : Nat} (compress : Vector (BitVec w) 8 → Vector Byte bs → Vector (BitVec w) 8)
    (iv : Vector (BitVec w) 8) (msg : List Byte) (h : 0 < bs) : Stream w bs :=
  { H := chainBlocks compress iv (wholeBlocks bs msg)
    buf := Vector.ofFn fun i => msg.getD (msg.length / bs * bs + i.val) 0
    bufferLen := ⟨msg.length % bs, Nat.mod_lt _ h⟩ }

/-- An Accumulating instance that holds `msg`, hashed as `v`; the host's next actions are `host`. -/
def holding (v : Variant) (msg : List Byte) (host : List HostAction) : State :=
  { State.reset with
    phase := .accumulating
    variant := v
    ctx := match v with
      | .v256 => .ctx32
          { streamOf compress32 iv256 msg (by decide) with bitLength := BitVec.ofNat 64 (8 * msg.length) }
      | .v512 => .ctx64
          { streamOf compress64 iv512 msg (by decide) with
            bitLengthHi := BitVec.ofNat 64 (8 * msg.length / 2 ^ 64), bitLengthLo := BitVec.ofNat 64 (8 * msg.length) }
      | .v384 => .ctx64
          { streamOf compress64 iv384 msg (by decide) with
            bitLengthHi := BitVec.ofNat 64 (8 * msg.length / 2 ^ 64), bitLengthLo := BitVec.ofNat 64 (8 * msg.length) }
    host := host }

theorem streamOf_absorbed {w bs : Nat} (compress : Vector (BitVec w) 8 → Vector Byte bs → Vector (BitVec w) 8)
    (iv : Vector (BitVec w) 8) (msg : List Byte) (h : 0 < bs) : (streamOf compress iv msg h).Absorbed compress iv msg :=
  ⟨rfl, rfl, fun i _ => by simp [streamOf]⟩

theorem bits_split {n : Nat} (h : n < 2 ^ 128) :
    (BitVec.ofNat 64 (n / 2 ^ 64)).toNat * 2 ^ 64 + (BitVec.ofNat 64 n).toNat = n := by
  rw [BitVec.toNat_ofNat, BitVec.toNat_ofNat, Nat.mod_eq_of_lt (Nat.div_lt_of_lt_mul (by exact h)), Nat.mul_comm]
  exact Nat.div_add_mod n (2 ^ 64)

/-- The constructed instance holds its message, whenever the counter can count it. -/
theorem holding_holds (v : Variant) (msg : List Byte) (host : List HostAction) (h : 8 * msg.length < counterBound v) :
    (holding v msg host).HoldsMessage v msg := by
  refine ⟨.inr rfl, rfl, ?_⟩
  cases v with
  | v256 => exact ⟨_, rfl, streamOf_absorbed compress32 iv256 msg (by decide), Nat.mod_eq_of_lt h⟩
  | v512 => exact ⟨_, rfl, streamOf_absorbed compress64 iv512 msg (by decide), bits_split h⟩
  | v384 => exact ⟨_, rfl, streamOf_absorbed compress64 iv384 msg (by decide), bits_split h⟩

/-- "abc". -/
def abc : List Byte := [0x61, 0x62, 0x63]

/-- A live V256 instance with `len` buffered bytes and the given counter. -/
def live32 (len : Fin 64) (bits : Word64) (host : List HostAction) : State :=
  { State.reset with
    phase := .accumulating
    ctx := .ctx32 { H := iv256, buf := Vector.replicate 64 0, bufferLen := len, bitLength := bits }
    host := host }

/-- A live V512 instance with `len` buffered bytes and the given counter words. -/
def live64 (len : Fin 128) (hi lo : Word64) (host : List HostAction) : State :=
  { State.reset with
    phase := .accumulating
    variant := .v512
    ctx := .ctx64 { H := iv512, buf := Vector.replicate 128 0, bufferLen := len, bitLengthHi := hi, bitLengthLo := lo }
    host := host }

/-- A Faulted instance, of code ERR_ILLEGAL_COMMAND. -/
def faulted (host : List HostAction) : State := { State.reset with phase := .faulted, faultCode := 0x03, host := host }

/-- A Finalized instance. -/
def finalized (host : List HostAction) : State := { State.reset with phase := .finalized, host := host }

/-! ## Well-formedness (R94) -/

theorem test_wellFormed_refuses_long_update : (Instr.update 16777216).wellFormed = false := by decide

theorem test_wellFormed_admits_longest_update : (Instr.update 16777215).wellFormed = true := by decide

/-! ## Decoding: words written out from the encodings of 30_encoding.md, as 95_test_vectors.md section 2.7 lists them -/

/-- INIT.256, `op` = 0x01, `cmd[23:8]` = 0, variant 0x00. -/
theorem test_decode_init256 : decode (0x01#8 ++ 0x0000#16 ++ 0x00#8) = .command .init256 := by decide

theorem test_decode_init512 : decode (0x01#8 ++ 0x0000#16 ++ 0x01#8) = .command .init512 := by decide

theorem test_decode_init384 : decode (0x01#8 ++ 0x0000#16 ++ 0x02#8) = .command .init384 := by decide

/-- UPDATE 3, `op` = 0x02, `cmd[23:0]` = 3 (KAT-2). -/
theorem test_decode_update : decode 0x02000003 = .command (.update 3) := by decide

/-- FINALIZE, `op` = 0x03, `cmd[23:0]` = 0. -/
theorem test_decode_finalize : decode 0x03000000 = .command .finalize := by decide

/-- IN-9: the reserved field is looked at before the variant. -/
theorem test_decode_reserved_before_variant : decode 0x01010003 = .illegal .illegalCommand := by decide

theorem test_decode_table_word : decodeTableWord 32 0x02000003 = some (.update 3) ∧ decodeTableWord 32 0xFF000000 = none := by
  decide

/-- The host's probe: the placed word is the next command. -/
theorem test_withFetchWord :
    nextField (·.phase) (step (State.reset.withFetchWord 32 0x01000001)) = some .initialized ∧
      nextField (·.variant) (step (State.reset.withFetchWord 32 0x01000001)) = some .v512 := by
  decide

/-! ## Word functions (95_test_vectors.md section 2.1) -/

theorem test_functions32 :
    rotr 0xdeadbeef#32 16 = 0xbeefdead ∧ smallSigma0W32 0xdeadbeef = 0xabd31b0b ∧
      smallSigma1W32 0xdeadbeef = 0x689dbfec ∧ bigSigma0W32 0xdeadbeef = 0xb62e25ac ∧
      bigSigma1W32 0xdeadbeef = 0x345e14a3 := by
  decide

theorem test_functions64 :
    rotr 0x8000000000000001#64 1 = 0xc000000000000000 ∧
      smallSigma0W64 0xfedcba9876543210 = 0x6e6d388393b0e55e ∧ smallSigma1W64 0xfedcba9876543210 = 0x735cb9f2442bce85 ∧
      bigSigma0W64 0xfedcba9876543210 = 0x483a85eff3813e54 ∧ bigSigma1W64 0xfedcba9876543210 = 0x88fceedcccb8aa98 := by
  decide

theorem test_choice_majority :
    choice 0x0f0f0f0f#32 0x12345678 0x9abcdef0 = 0x92b4d6f8 ∧
      majority 0x0f0f0f0f#32 0x12345678 0x9abcdef0 = 0x1a3c5e78 := by
  decide

/-! ## Compression (CMP32-2, CMP32-4, CMP64-3, CMP64-6) -/

theorem test_compress32_zero : compress32 (Vector.replicate 8 0) (Vector.replicate 64 0) =
    #v[0x7ca51614, 0x425c3ba8, 0xce54dd2f, 0xc2020ae7, 0xb6e574d1, 0x98136d0f, 0xae7e26cc, 0xbf0be7a6] := by
  decide +kernel

theorem test_compress32_ones : compress32 iv256 (Vector.replicate 64 0xff) =
    #v[0xef0c748d, 0xf4da50a8, 0xd6c43c01, 0x3edc3ce7, 0x6c9d9fa9, 0xa1458ade, 0x56eb86c0, 0xa64492d2] := by
  decide +kernel

theorem test_compress64_zero : compress64 (Vector.replicate 8 0) (Vector.replicate 128 0) =
    #v[0xad3a5da838ebf830, 0x5d7142ff85fcbedb, 0x7fa8bf86d6f7ca99, 0x1c6b15b039d70bbf,
       0x29f6515289923518, 0x6fd7101d5f2e8f3a, 0x1c358d2476531450, 0x568c0d99d756dc3c] := by
  decide +kernel

theorem test_compress64_ones : compress64 iv384 (Vector.replicate 128 0xff) =
    #v[0xd9f221d6dc2a277a, 0x5ea5cbdf60c6c62b, 0x4bd18ea94a9959cc, 0x3ba8b0d78090476c,
       0xbf788ca595d8b9b2, 0xaa1fbb825c181414, 0xabfba836854969b3, 0xc65610f5d65b0415] := by
  decide +kernel

/-! ## INIT -/

/-- IN-1. -/
theorem test_init256 :
    nextField (fun t => (t.phase, t.rsp)) (exec .init256 State.reset) = some (.initialized, [0x00]) := by
  decide

/-- IN-4: INIT.512 on an instance with buffered bytes drops them. -/
theorem test_init512_drops_buffered_bytes :
    nextField (fun t => match t.ctx with | .ctx32 _ => none | .ctx64 c => some (c.H[0], c.bufferLen.val, c.bitLengthLo))
      (exec .init512 (holding .v256 abc [])) = some (some (0x6a09e667f3bcc908, 0, 0)) := by
  decide +kernel

/-- IN-3 and IN-5. -/
theorem test_init384_when_finalized :
    nextField (fun t => match t.ctx with | .ctx32 _ => none | .ctx64 c => some (c.H[0], t.variant))
      (exec .init384 (finalized [])) = some (some (0xcbbb9d5dc1059ed8, .v384)) := by
  decide

/-! ## UPDATE -/

/-- UP-5: the counter's low word overflows into its high word. -/
theorem test_update_counter_carry :
    nextField (fun t => match t.ctx with | .ctx32 _ => none | .ctx64 c => some (c.bitLengthHi, c.bitLengthLo, c.bufferLen.val))
      (exec (.update 1) (live64 0 0 0xfffffffffffffff8 [.payload 0x00])) = some (some (1, 0, 1)) := by
  decide +kernel

/-- UP-7: no room for 8 more bits. -/
theorem test_update_length_overflow :
    nextField (fun t => (t.phase, t.faultCode, t.rsp)) (exec (.update 1) (live32 0 0xfffffffffffffff8 [.payload 0x00])) =
      some (.faulted, 0x05, [0x05]) := by
  decide +kernel

/-! ## FINALIZE -/

/-- KAT-2: SHA-256 of "abc". -/
theorem test_finalize_abc : nextField (·.rsp) (exec .finalize (holding .v256 abc [])) = some
    [0x00, 0xba, 0x78, 0x16, 0xbf, 0x8f, 0x01, 0xcf, 0xea, 0x41, 0x41, 0x40, 0xde, 0x5d, 0xae, 0x22, 0x23,
     0xb0, 0x03, 0x61, 0xa3, 0x96, 0x17, 0x7a, 0x9c, 0xb4, 0x10, 0xff, 0x61, 0xf2, 0x00, 0x15, 0xad] := by
  decide +kernel

/-- KAT-4: SHA-384 of "abc", 48 bytes. -/
theorem test_finalize_truncates : nextField (·.rsp) (exec .finalize (holding .v384 abc [])) = some
    [0x00, 0xcb, 0x00, 0x75, 0x3f, 0x45, 0xa3, 0x5e, 0x8b, 0xb5, 0xa0, 0x3d, 0x69, 0x9a, 0xc6, 0x50, 0x07,
     0x27, 0x2c, 0x32, 0xab, 0x0e, 0xde, 0xd1, 0x63, 0x1a, 0x8b, 0x60, 0x5a, 0x43, 0xff, 0x5b, 0xed,
     0x80, 0x86, 0x07, 0x2b, 0xa1, 0xe7, 0xcc, 0x23, 0x58, 0xba, 0xec, 0xa1, 0x34, 0xc8, 0x25, 0xa7] := by
  decide +kernel

/-! ## Faults and reset -/

/-- FX-7's third command: INIT.256 in phase Faulted has no effect. -/
theorem test_faulted_keeps_code :
    nextField (fun t => (t.phase, t.faultCode, t.rsp)) (exec .init256 (faulted [])) = some (.faulted, 0x03, [0x06]) := by
  decide

/-- FX-9: the word is decoded before the phase is checked. -/
theorem test_decode_before_phase :
    nextField (fun t => (t.phase, t.faultCode)) (step (finalized [.command 0x03000001])) = some (.faulted, 0x03) := by
  decide

/-- RS-3: a reset while UPDATE 10 waits with 4 of its bytes delivered. -/
theorem test_reset_abandons_update :
    nextField (fun t => (t.phase, t.trace, t.host))
      (step { live32 5 40 (payloads [0x01, 0x02, 0x03, 0x04] ++ [.reset, .payload 0x05, .command 0x03000000]) with
        pending := some 10 }) =
      some (.uninitialized, [.reset, .reset], [.command 0x03000000]) := by
  decide +kernel

/-! ## Witnesses: command words and steps -/

theorem witness_DecodeOfEncode : ∀ i ∈ ([.init256, .init512, .init384, .finalize, .update 0, .update 16777215] : List Instr),
    i.wellFormed = true := by
  decide

theorem witness_EncodeOfDecode : decode 0x02FFFFFF = .command (.update 16777215) := by decide

theorem witness_StepRunsDecodedCommand : ∃ (s : State) (cmd : Word32) (rest : List HostAction) (i : Instr),
    s.pending = none ∧ s.host = .command cmd :: rest ∧ decode cmd = .command i :=
  ⟨holding .v256 abc [.command 0x03000000, .reset], 0x03000000, [.reset], .finalize, rfl, rfl, by decide⟩

theorem witness_StepResumesWaitingUpdate : ∃ (s : State) (n : Nat), s.pending = some n :=
  ⟨{ holding .v256 abc [] with pending := some 10 }, 10, rfl⟩

theorem witness_IdleKeepsState : ∃ s : State, s.pending = none ∧ s.host = [] := ⟨holding .v256 abc [], rfl, rfl⟩

/-- Each clause at the ends of its range. -/
theorem witness_IllegalCommandWordFaults :
    (∀ cmd ∈ ([0x00000000, 0x00FFFFFF, 0x04000000, 0xFFFFFFFF] : List Word32),
      cmd.toNat / 2 ^ 24 = 0x00 ∨ 0x04 ≤ cmd.toNat / 2 ^ 24) ∧
    (∀ cmd ∈ ([0x01000100, 0x01FFFFFF] : List Word32), cmd.toNat / 2 ^ 24 = 0x01 ∧ cmd.toNat / 2 ^ 8 % 2 ^ 16 ≠ 0) ∧
    (∀ cmd ∈ ([0x03000001, 0x03FFFFFF] : List Word32), cmd.toNat / 2 ^ 24 = 0x03 ∧ cmd.toNat % 2 ^ 24 ≠ 0) ∧
    ∀ cmd : Word32, ∃ s : State, s.pending = none ∧ s.host = .command cmd :: [.reset] ∧ s.phase ≠ .faulted :=
  ⟨by simp, by simp, by simp,
    fun cmd => ⟨finalized [.command cmd, .reset], rfl, rfl, nofun⟩⟩

theorem witness_IllegalVariantWordFaults :
    (∀ cmd ∈ ([0x01000003, 0x010000FF] : List Word32), cmd.toNat / 2 ^ 24 = 0x01 ∧ cmd.toNat / 2 ^ 8 % 2 ^ 16 = 0 ∧
      0x03 ≤ cmd.toNat % 2 ^ 8) ∧
    ∀ cmd : Word32, ∃ s : State, s.pending = none ∧ s.host = .command cmd :: [.reset] ∧ s.phase ≠ .faulted :=
  ⟨by simp, fun cmd => ⟨finalized [.command cmd, .reset], rfl, rfl, nofun⟩⟩

/-- No byte of one, and all but one of ten. -/
theorem witness_ShortPayloadWaits :
    (∃ s : State, ([] : List Byte).length < 1 ∧ s.host = payloads [] ∧ s.pending = some 1) ∧
    ∃ s : State, (List.replicate 9 (0x61 : Byte)).length < 10 ∧ s.host = payloads (List.replicate 9 0x61) ∧
      s.pending = some 10 :=
  ⟨⟨{ holding .v256 abc [] with pending := some 1 }, by decide, rfl, rfl⟩,
    { holding .v256 abc (payloads (List.replicate 9 0x61)) with pending := some 10 }, by decide, rfl, rfl⟩

/-- The least number of bytes too many: one more than an UPDATE takes, and one with each kind of word that takes none. -/
theorem witness_PayloadDutyBreachStops :
    (∃ (s : State) (cmd : Word32), abc.length < 4 ∧ s.host = payloads abc ++ .command cmd :: []) ∧
    (∃ (s : State) (cmd : Word32) (d : List Byte), abc.length < 4 ∧ s.host = payloads abc ++ .resetDuring cmd d :: []) ∧
    (∃ (s : State) (x : Byte) (rest : List HostAction), s.pending = none ∧ s.host = .payload x :: rest) ∧
    (∃ s : State, s.pending = none ∧ s.host = .resetDuring 0x02000002 abc :: [] ∧
      decode 0x02000002 = .command (.update 2) ∧ 2 < abc.length) ∧
    ∀ cmd ∈ ([0x01000000, 0x03000000, 0x04000000] : List Word32), ∃ s : State, s.pending = none ∧
      s.host = .resetDuring cmd [0x61] :: [] ∧ ∀ n, decode cmd ≠ .command (.update n) := by
  refine ⟨⟨holding .v256 [] (payloads abc ++ [.command 0x03000000]), _, by decide, rfl⟩,
    ⟨holding .v256 [] (payloads abc ++ [.resetDuring 0x02000001 [0x61]]), _, _, by decide, rfl⟩,
    ⟨holding .v256 [] [.payload 0x61], _, _, rfl, rfl⟩,
    ⟨holding .v256 [] [.resetDuring 0x02000002 abc], rfl, rfl, by decide, by decide⟩, fun cmd hc => ?_⟩
  refine ⟨holding .v256 [] [.resetDuring cmd [0x61]], rfl, rfl, fun n => ?_⟩
  simp at hc
  rcases hc with rfl | rfl | rfl <;> nofun

theorem witness_ResetStateValues : ∃ (s t : State) (rest : List HostAction), s.pending = none ∧ s.host = .reset :: rest ∧
    step s = .next t ∧ s.phase = .faulted :=
  ⟨faulted [.reset, .reset], _, _, rfl, rfl, rfl, rfl⟩

/-- A reset between commands; one inside each kind of command that takes no payload; one inside UPDATE 10, and one while
it waits, with nothing left of the payload before a command, and with all of it left before one more byte. -/
theorem witness_ResetFromEveryState :
    (∃ (s : State) (rest : List HostAction), s.pending = none ∧ s.host = .reset :: rest) ∧
    (∀ cmd ∈ ([0x01000000, 0x03000000, 0x04000000] : List Word32), ∃ s : State, s.pending = none ∧
      (∀ n, decode cmd ≠ .command (.update n)) ∧ s.host = .resetDuring cmd [] :: []) ∧
    ∀ p ∈ ([([], .command 0x01000000), (List.replicate 7 0x62, .payload 0x63)] : List (List Byte × HostAction)),
      abc.length + p.1.length ≤ 10 ∧
      (abc.length + p.1.length = 10 ∨ ∀ x, [p.2].head? ≠ some (.payload x)) ∧
      decode 0x0200000A = .command (.update 10) ∧ abc.length < 10 ∧
      (∃ s : State, s.pending = none ∧ s.host = .resetDuring 0x0200000A abc :: (payloads p.1 ++ [p.2])) ∧
      (∃ s : State, s.pending = none ∧
        s.host = .command 0x0200000A :: (payloads abc ++ .reset :: (payloads p.1 ++ [p.2]))) ∧
      ∃ s : State, s.pending = some 10 ∧ s.host = payloads abc ++ .reset :: (payloads p.1 ++ [p.2]) := by
  refine ⟨⟨faulted [.reset], _, rfl, rfl⟩, fun cmd hc => ⟨faulted [.resetDuring cmd []], rfl, fun n => ?_, rfl⟩,
    fun p hp => ⟨?_, ?_, by decide, by decide, ⟨faulted (.resetDuring 0x0200000A abc :: (payloads p.1 ++ [p.2])), rfl, rfl⟩,
      ⟨faulted (.command 0x0200000A :: (payloads abc ++ .reset :: (payloads p.1 ++ [p.2]))), rfl, rfl⟩,
      { holding .v256 [] (payloads abc ++ .reset :: (payloads p.1 ++ [p.2])) with pending := some 10 }, rfl, rfl⟩⟩
  · simp at hc
    rcases hc with rfl | rfl | rfl <;> nofun
  · simp at hp
    rcases hp with rfl | rfl <;> decide
  · simp at hp
    rcases hp with rfl | rfl
    · exact .inr (by simp)
    · exact .inl (by decide)

/-- R330: a reset inside UPDATE 3 discards the two bytes still owed, and no command that follows them. -/
theorem test_reset_inside_update_discards_rest :
    nextField (fun t => (t.phase, t.host))
      (step (live32 3 24 [.resetDuring 0x02000003 [0x61], .payload 0x62, .payload 0x63, .command 0x01000000])) =
    some (.uninitialized, [.command 0x01000000]) := by
  decide

/-- Log entry 4: a byte with an INIT word is outside the protocol, reset or not. -/
theorem test_reset_inside_init_refuses_payload :
    step (live32 3 24 [.resetDuring 0x01000000 [0x61]]) = .refused .strayPayload := by
  rfl

/-! ## Witnesses: INIT, UPDATE, FINALIZE -/

theorem witness_Init256StartsContext :
    (∃ cmd : Word32, cmd.toNat / 2 ^ 24 = 1 ∧ cmd.toNat / 2 ^ 8 % 2 ^ 16 ≠ 0) ∧
    (∃ s : State, s.phase ≠ .faulted ∧ s.ctx ≠ .ctx32 Ctx32.zero) ∧ ∃ s : State, s.phase = .faulted :=
  ⟨⟨0x01000100, by decide⟩, ⟨live64 3 0 24 [], by decide, by simp [live64]⟩, faulted [], rfl⟩

theorem witness_Init512StartsContext :
    (∃ cmd : Word32, cmd.toNat / 2 ^ 24 = 1 ∧ cmd.toNat / 2 ^ 8 % 2 ^ 16 ≠ 0) ∧
    (∃ s : State, s.phase ≠ .faulted ∧ s.variant = .v256) ∧ ∃ s : State, s.phase = .faulted :=
  ⟨⟨0x01000101, by decide⟩, ⟨holding .v256 abc [], by decide, rfl⟩, faulted [], rfl⟩

theorem witness_Init384StartsContext :
    (∃ cmd : Word32, cmd.toNat / 2 ^ 24 = 1 ∧ cmd.toNat / 2 ^ 8 % 2 ^ 16 ≠ 0) ∧
    (∃ s : State, s.phase ≠ .faulted ∧ s.variant = .v512) ∧ ∃ s : State, s.phase = .faulted :=
  ⟨⟨0x01FFFF02, by decide⟩, ⟨holding .v512 abc [], by decide, rfl⟩, faulted [], rfl⟩

/-- Each shape, with the first byte of a block, the last byte short of it, and the byte that fills it. -/
theorem witness_UpdateAbsorbsByte :
    (∀ len ∈ ([0, 62] : List (Fin 64)), ∃ (s : State) (c : Ctx32), s.Live ∧ s.host = .payload 0x61 :: [.reset] ∧
      s.HasRoom 1 ∧ s.ctx = .ctx32 c ∧ c.bufferLen.val + 1 < 64 ∧ c.bufferLen = len) ∧
    (∃ (s : State) (c : Ctx32), s.Live ∧ s.host = .payload 0x61 :: [.reset] ∧ s.HasRoom 1 ∧ s.ctx = .ctx32 c ∧
      c.bufferLen.val + 1 = 64) ∧
    (∀ len ∈ ([0, 126] : List (Fin 128)), ∃ (s : State) (c : Ctx64), s.Live ∧ s.host = .payload 0x61 :: [.reset] ∧
      s.HasRoom 1 ∧ s.ctx = .ctx64 c ∧ c.bufferLen.val + 1 < 128 ∧ c.bufferLen = len) ∧
    ∃ (s : State) (c : Ctx64), s.Live ∧ s.host = .payload 0x61 :: [.reset] ∧ s.HasRoom 1 ∧ s.ctx = .ctx64 c ∧
      c.bufferLen.val + 1 = 128 := by
  refine ⟨fun len hl => ?_, ⟨live32 63 504 [.payload 0x61, .reset], _, .inr rfl, rfl, by decide, rfl, rfl⟩,
    fun len hl => ?_, live64 127 0 1016 [.payload 0x61, .reset], _, .inr rfl, rfl, by decide, rfl, rfl⟩ <;>
    simp at hl <;> rcases hl with rfl | rfl
  · exact ⟨live32 0 0 [.payload 0x61, .reset], _, .inr rfl, rfl, by decide, rfl, by decide, rfl⟩
  · exact ⟨live32 62 496 [.payload 0x61, .reset], _, .inr rfl, rfl, by decide, rfl, by decide, rfl⟩
  · exact ⟨live64 0 0 0 [.payload 0x61, .reset], _, .inr rfl, rfl, by decide, rfl, by decide, rfl⟩
  · exact ⟨live64 126 0 1008 [.payload 0x61, .reset], _, .inr rfl, rfl, by decide, rfl, by decide, rfl⟩

/-- Each shape, with no byte, and with the last byte the counter has room for; and the carry between the counter words. -/
theorem witness_UpdateCompletesAndCounts :
    (∃ s : State, s.Live ∧ s.host = payloads [] ++ [.reset] ∧ s.HasRoom 0 ∧ ∃ c, s.ctx = .ctx32 c) ∧
    (∃ s : State, s.Live ∧ s.host = payloads [0x61] ++ [.reset] ∧ s.HasRoom 1 ∧
      ∃ c, s.ctx = .ctx32 c ∧ c.bitLength = 0xfffffffffffffff0) ∧
    (∃ s : State, s.Live ∧ s.host = payloads [0x61] ++ [.reset] ∧ s.HasRoom 1 ∧
      ∃ c, s.ctx = .ctx64 c ∧ c.bitLengthLo.toNat + 8 ≥ 2 ^ 64) ∧
    ∃ s : State, s.Live ∧ s.host = payloads [0x61] ++ [.reset] ∧ s.HasRoom 1 ∧
      ∃ c, s.ctx = .ctx64 c ∧ c.bitLengthHi = 0xffffffffffffffff ∧ c.bitLengthLo = 0xfffffffffffffff0 :=
  ⟨⟨live32 0 0 [.reset], .inr rfl, rfl, by decide, _, rfl⟩,
    ⟨live32 0 0xfffffffffffffff0 [.payload 0x61, .reset], .inr rfl, rfl, by decide, _, rfl, rfl⟩,
    ⟨live64 0 0 0xfffffffffffffff8 [.payload 0x61, .reset], .inr rfl, rfl, by decide, _, rfl, by decide⟩,
    live64 0 0xffffffffffffffff 0xfffffffffffffff0 [.payload 0x61, .reset], .inr rfl, rfl, by decide, _, rfl, rfl, rfl⟩

/-- Each shape, filling the buffer up to its last byte. -/
theorem witness_UpdateWithinBlock :
    (∃ (s : State) (c : Ctx32), s.Live ∧ s.host = payloads abc ++ [.reset] ∧ s.HasRoom abc.length ∧ s.ctx = .ctx32 c ∧
      c.bufferLen.val + abc.length = 63) ∧
    ∃ (s : State) (c : Ctx64), s.Live ∧ s.host = payloads abc ++ [.reset] ∧ s.HasRoom abc.length ∧ s.ctx = .ctx64 c ∧
      c.bufferLen.val + abc.length = 127 :=
  ⟨⟨live32 60 480 (payloads abc ++ [.reset]), _, .inr rfl, rfl, by decide, rfl, rfl⟩,
    live64 124 0 992 (payloads abc ++ [.reset]), _, .inr rfl, rfl, by decide, rfl, rfl⟩

/-- Each shape, over the end of a block. -/
theorem witness_UpdatePassCount :
    (∃ (s : State) (c : Ctx32), s.Live ∧ s.host = payloads abc ++ [.reset] ∧ s.HasRoom abc.length ∧ s.ctx = .ctx32 c ∧
      (c.bufferLen.val + abc.length) / 64 = 1) ∧
    ∃ (s : State) (c : Ctx64), s.Live ∧ s.host = payloads abc ++ [.reset] ∧ s.HasRoom abc.length ∧ s.ctx = .ctx64 c ∧
      (c.bufferLen.val + abc.length) / 128 = 1 :=
  ⟨⟨live32 61 488 (payloads abc ++ [.reset]), _, .inr rfl, rfl, by decide, rfl, rfl⟩,
    live64 126 0 1008 (payloads abc ++ [.reset]), _, .inr rfl, rfl, by decide, rfl, rfl⟩

theorem witness_EmptyUpdateOnlyMovesPhase : ∃ s : State, s.Live ∧ s.phase = .initialized :=
  ⟨{ live32 0 0 [] with phase := .initialized }, .inl rfl, rfl⟩

/-- P2's chunks. -/
theorem witness_ChunkingInvariance : ∃ (s : State) (chunks : List (List Byte)),
    chunks ≠ [] ∧ s.Live ∧ chunks.flatten.length < 2 ^ 24 ∧ s.HasRoom chunks.flatten.length :=
  ⟨live64 126 0 1008 [], [[], [0x61], [0x62, 0x63]], by decide, .inr rfl, by decide, by decide⟩

theorem witness_UpdateIgnoresTruncatedVariant : ∃ (s : State) (c : Ctx64),
    s.ctx = .ctx64 c ∧ s.Live ∧ s.host = payloads abc ++ [.reset] ∧ s.HasRoom abc.length :=
  ⟨live64 126 0 1008 (payloads abc ++ [.reset]), _, rfl, .inr rfl, rfl, by decide⟩

/-- Nothing buffered, and the most that fits in one block. -/
theorem witness_Finalize32OneBlock : ∀ len ∈ ([0, 55] : List (Fin 64)), ∃ (s : State) (c : Ctx32),
    s.Live ∧ s.variant = .v256 ∧ s.ctx = .ctx32 c ∧ c.bufferLen = len ∧ c.bufferLen.val < 56 := by
  intro len hl
  refine ⟨live32 len 440 [], _, .inr rfl, rfl, rfl, rfl, ?_⟩
  simp at hl
  rcases hl with rfl | rfl <;> decide

/-- The least and the most that needs a second block. -/
theorem witness_Finalize32TwoBlocks : ∀ len ∈ ([56, 63] : List (Fin 64)), ∃ (s : State) (c : Ctx32),
    s.Live ∧ s.variant = .v256 ∧ s.ctx = .ctx32 c ∧ c.bufferLen = len ∧ 56 ≤ c.bufferLen.val := by
  intro len hl
  refine ⟨live32 len 504 [], _, .inr rfl, rfl, rfl, rfl, ?_⟩
  simp at hl
  rcases hl with rfl | rfl <;> decide

/-- Both variants of the 64-bit core. -/
theorem witness_Finalize64OneBlock : ∀ len ∈ ([0, 111] : List (Fin 128)), ∀ v ∈ ([.v512, .v384] : List Variant),
    ∃ (s : State) (c : Ctx64), s.Live ∧ s.variant = v ∧ v ≠ .v256 ∧ s.ctx = .ctx64 c ∧ c.bufferLen = len ∧
      c.bufferLen.val < 112 := by
  intro len hl v hv
  refine ⟨{ live64 len 1 888 [] with variant := v }, _, .inr rfl, rfl, ?_, rfl, rfl, ?_⟩
  · simp at hv; rcases hv with rfl | rfl <;> decide
  · simp at hl; rcases hl with rfl | rfl <;> decide

theorem witness_Finalize64TwoBlocks : ∀ len ∈ ([112, 127] : List (Fin 128)), ∀ v ∈ ([.v512, .v384] : List Variant),
    ∃ (s : State) (c : Ctx64), s.Live ∧ s.variant = v ∧ v ≠ .v256 ∧ s.ctx = .ctx64 c ∧ c.bufferLen = len ∧
      112 ≤ c.bufferLen.val := by
  intro len hl v hv
  refine ⟨{ live64 len 1 1016 [] with variant := v }, _, .inr rfl, rfl, ?_, rfl, rfl, ?_⟩
  · simp at hv; rcases hv with rfl | rfl <;> decide
  · simp at hl; rcases hl with rfl | rfl <;> decide

/-- Every variant, on the shape it selects. -/
theorem witness_FinalizeZeroizes : ∀ v : Variant, ∃ s : State, s.Live ∧ s.variant = v ∧ s.shapeMatches = true := by
  intro v
  exact ⟨holding v abc [], .inr rfl, rfl, by cases v <;> rfl⟩

/-! ## Witnesses: faults -/

theorem witness_UninitializedFaults :
    ∃ s : State, s.phase = .uninitialized ∧ s.host = payloads abc ++ [.reset] :=
  ⟨{ State.reset with host := payloads abc ++ [.reset] }, rfl, rfl⟩

theorem witness_FinalizedFaults : ∃ s : State, s.phase = .finalized ∧ s.host = payloads abc ++ [.reset] :=
  ⟨finalized (payloads abc ++ [.reset]), rfl, rfl⟩

/-- Each shape, one byte too many. -/
theorem witness_LengthOverflowFaults :
    (∃ s : State, s.Live ∧ s.host = payloads [0x61] ++ [.reset] ∧
      ∃ c, s.ctx = .ctx32 c ∧ c.bitLength.toNat + 8 * ([0x61] : List Byte).length = 2 ^ 64) ∧
    ∃ s : State, s.Live ∧ s.host = payloads [0x61] ++ [.reset] ∧ ∃ c, s.ctx = .ctx64 c ∧
      c.bitLengthHi.toNat * 2 ^ 64 + c.bitLengthLo.toNat + 8 * ([0x61] : List Byte).length = 2 ^ 128 :=
  ⟨⟨live32 0 0xfffffffffffffff8 (payloads [0x61] ++ [.reset]), .inr rfl, rfl, _, rfl, by decide⟩,
    live64 0 0xffffffffffffffff 0xfffffffffffffff8 (payloads [0x61] ++ [.reset]), .inr rfl, rfl, _, rfl, by decide⟩

theorem witness_FaultedAnswersEveryCommand :
    (∃ s : State, s.phase = .faulted ∧ s.host = payloads abc ++ [.reset]) ∧
    ∃ (s : State) (cmd : Word32) (e : IllegalWord), s.phase = .faulted ∧ s.pending = none ∧
      s.host = .command cmd :: [.reset] ∧ decode cmd = .illegal e :=
  ⟨⟨faulted (payloads abc ++ [.reset]), rfl, rfl⟩,
    faulted [.command 0x01000003, .reset], 0x01000003, .illegalVariant, rfl, rfl, rfl, by decide⟩

/-- A command and a reset. -/
theorem witness_OnlyResetLeavesFaulted :
    (∃ s t : State, s.phase = .faulted ∧ step s = .next t ∧ t.phase = .faulted) ∧
    ∃ s t : State, s.phase = .faulted ∧ step s = .next t ∧ t.phase = .uninitialized :=
  ⟨⟨faulted [.command 0x01000000], _, rfl, rfl, rfl⟩, faulted [.reset], _, rfl, rfl, rfl⟩

theorem witness_FaultsArePrecise : ∃ s t : State, s.phase ≠ .faulted ∧ step s = .next t ∧ t.phase = .faulted :=
  ⟨live32 3 24 [.command 0x00000000], _, by decide, rfl, rfl⟩

/-- Every phase, both answers of the length check, an illegal word and a reset. -/
theorem witness_PhaseTable :
    (∀ p ∈ ([.uninitialized, .initialized, .accumulating, .finalized, .faulted] : List Phase), ∃ s : State,
      s.phase = p ∧ s.host = payloads [0x61] ++ []) ∧
    (∃ s : State, s.Live ∧ s.host = payloads [0x61] ++ [] ∧ s.HasRoom ([0x61] : List Byte).length) ∧
    (∃ s : State, s.Live ∧ s.host = payloads [0x61] ++ [] ∧ ¬ s.HasRoom ([0x61] : List Byte).length) ∧
    (∃ (s : State) (cmd : Word32) (e : IllegalWord), s.pending = none ∧ s.host = .command cmd :: [] ∧
      decode cmd = .illegal e ∧ s.phase = .faulted) ∧
    ∃ (s : State) (rest : List HostAction), s.pending = none ∧ s.host = .reset :: rest :=
  ⟨fun p _ => ⟨{ live32 3 24 (payloads [0x61] ++ []) with phase := p }, rfl, rfl⟩,
    ⟨live32 3 24 (payloads [0x61]), .inr rfl, rfl, by decide⟩,
    ⟨live32 3 0xfffffffffffffff8 (payloads [0x61]), .inr rfl, rfl, by decide⟩,
    ⟨faulted [.command 0xFF000000], 0xFF000000, .illegalCommand, rfl, rfl, by decide, rfl⟩, faulted [.reset], _, rfl, rfl⟩

theorem witness_OneResponsePerCommand : ∃ (s : State) (i : Instr), i = .update 3 ∧
    ∀ n, i = .update n → ∃ data rest, data.length = n ∧ s.host = payloads data ++ rest :=
  ⟨live32 3 24 (payloads abc), _, rfl, fun n h => ⟨abc, [], by simpa [abc] using h, by simp [live32]⟩⟩

theorem witness_TraceAndResponsesOnlyGrow : ∃ s t : State, step s = .next t ∧ s ≠ t :=
  ⟨live32 3 24 [.command 0x01000001], _, rfl, by decide⟩

/-! ## Witnesses: invariants and isolation -/

/-- A V256 instance after INIT.256 and UPDATE 3 "abc", on which FINALIZE comes next: a state that meets the invariant and
is not the reset state. -/
def abcRun : State :=
  { holding .v256 abc [.command 0x03000000] with
    trace := [.reset, .response .ok [], .response .ok []]
    rsp := [0x00, 0x00] }

theorem abcRun_inv : abcRun.Inv where
  shape := rfl
  faultCode := ⟨fun _ => rfl, fun h => by simp [abcRun, holding] at h⟩
  zero := fun h => by simp [abcRun, holding] at h
  counter := ⟨by decide, by decide⟩
  rsp := by decide
  trace := fun e h => by
    simp only [abcRun, List.mem_cons, List.not_mem_nil, or_false] at h
    rcases h with rfl | rfl | rfl
    · trivial
    · exact .inl rfl
    · exact .inl rfl
  pending := fun n h => by simp [abcRun, holding, State.reset] at h

theorem witness_StepKeepsInv : ∃ s t : State, s.Inv ∧ step s = .next t ∧ t.phase = .finalized :=
  ⟨abcRun, _, abcRun_inv, rfl, rfl⟩

theorem witness_UnusedContextUnobservable : ∃ s t : State, ¬ s.Live ∧ step s = .next t ∧ t.Live :=
  ⟨finalized [.command 0x01000002], _, by decide, rfl, .inl rfl⟩

/-- Each shape, for UPDATE and for FINALIZE, with a stale byte that differs. -/
theorem witness_StaleBytesUnobservable :
    (∀ i ∈ ([.update 3, .finalize] : List Instr), ∃ s t : State, s.Live ∧ s.host = payloads abc ++ [.reset] ∧
      exec i s = .next t ∧ ∃ (c : Ctx32) (buf : Vector Byte 64), s.ctx = .ctx32 c ∧ buf ≠ c.buf ∧
        ∀ j : Fin 64, j.val < c.bufferLen.val → buf[j] = c.buf[j]) ∧
    ∀ i ∈ ([.update 3, .finalize] : List Instr), ∃ s t : State, s.Live ∧ s.host = payloads abc ++ [.reset] ∧
      exec i s = .next t ∧ ∃ (c : Ctx64) (buf : Vector Byte 128), s.ctx = .ctx64 c ∧ buf ≠ c.buf ∧
        ∀ j : Fin 128, j.val < c.bufferLen.val → buf[j] = c.buf[j] := by
  refine ⟨fun i hi => ?_, fun i hi => ?_⟩ <;> simp at hi
  · have h : ∃ t, exec i (live32 3 24 (payloads abc ++ [.reset])) = .next t := by
      rcases hi with rfl | rfl
      · exact ⟨_, exec_update_of_live (data := abc) (rest := [.reset]) (.inr rfl) rfl⟩
      · exact ⟨_, rfl⟩
    obtain ⟨t, ht⟩ := h
    exact ⟨_, t, .inr rfl, rfl, ht, _, (Vector.replicate 64 0).set 63 1, rfl, by decide, by decide⟩
  · have h : ∃ t, exec i (live64 3 0 24 (payloads abc ++ [.reset])) = .next t := by
      rcases hi with rfl | rfl
      · exact ⟨_, exec_update_of_live (data := abc) (rest := [.reset]) (.inr rfl) rfl⟩
      · exact ⟨_, rfl⟩
    obtain ⟨t, ht⟩ := h
    exact ⟨_, t, .inr rfl, rfl, ht, _, (Vector.replicate 128 0).set 127 1, rfl, by decide +kernel, by decide +kernel⟩

/-- Two instances, each with a command to take. -/
def twoCores : System := { cores := [faulted [.command 0x01000000], finalized [.command 0x01000000]] }

theorem witness_InstancesAreIndependent : ∃ sys', twoCores.stepAt 1 = .next sys' ∧ twoCores.wellFormed = true :=
  ⟨_, rfl, rfl⟩

theorem witness_StepsOfInstancesCommute : ∃ a b, twoCores.stepAt 0 = .next a ∧ twoCores.stepAt 1 = .next b :=
  ⟨_, _, rfl, rfl⟩

/-! ## Witnesses: word functions, and messages -/

theorem witness_BigEndianWords :
    ([0x01, 0x02, 0x03, 0x04] : List Byte).length = 4 ∧ (List.replicate 8 (0xff : Byte)).length = 8 := by decide

/-- The least and the greatest distance of each width. -/
theorem witness_RotateMovesBits :
    (0 < 1 ∧ 1 < 32) ∧ (0 < 31 ∧ 31 < 32) ∧ (0 < 1 ∧ 1 < 64) ∧ (0 < 63 ∧ 63 < 64) := by decide

/-- The least and the greatest bit number, here and below. -/
theorem witness_SigmaBits32 : 0 < 32 ∧ 31 < 32 := by decide

theorem witness_SigmaBits64 : 0 < 64 ∧ 63 < 64 := by decide

/-- Every choice of three bits occurs at some place of these words. -/
theorem witness_ChoiceAndMajorityBits : ∀ a b c : Bool, ∃ i, i < 8 ∧ (0xF0#8).getLsbD i = a ∧ (0xCC#8).getLsbD i = b ∧
    (0xAA#8).getLsbD i = c := by
  decide

/-- The ends of the recurrence. -/
theorem witness_Schedule32 : (16 ≤ 16 ∧ 16 < 64) ∧ (16 ≤ 63 ∧ 63 < 64) := by decide

theorem witness_Schedule64 : (16 ≤ 16 ∧ 16 < 80) ∧ (16 ≤ 79 ∧ 79 < 80) := by decide

/-- The first round and the last. -/
theorem witness_Compress32Rounds : 0 < 64 ∧ 63 < 64 := by decide

theorem witness_Compress64Rounds : 0 < 80 ∧ 79 < 80 := by decide

/-- Every variant: an INIT, and an UPDATE of a nonempty message. -/
theorem witness_UpdateExtendsMessage : ∀ v : Variant,
    (∃ s t : State, s.phase ≠ .faulted ∧ exec (initOf v) s = .next t) ∧
    ∃ s : State, s.HoldsMessage v abc ∧ s.host = payloads abc ++ [.reset] ∧
      8 * (abc.length + abc.length) < counterBound v := by
  intro v
  refine ⟨⟨finalized [], _, by decide, exec_initOf v _⟩, holding v abc (payloads abc ++ [.reset]),
    holding_holds v abc _ ?_, rfl, ?_⟩ <;> cases v <;> decide

/-- Every variant, with a message whose padding needs one block and with one whose padding needs two. -/
theorem witness_FinalizeGivesMessageDigest : ∀ v : Variant,
    (∃ s : State, s.HoldsMessage v abc ∧ abc.length % blockSize v < blockSize v - lengthFieldSize v) ∧
    ∃ (s : State) (msg : List Byte), s.HoldsMessage v msg ∧
      msg.length % blockSize v ≥ blockSize v - lengthFieldSize v := by
  intro v
  refine ⟨⟨holding v abc [], holding_holds v abc _ (by cases v <;> decide), by cases v <;> decide⟩,
    holding v (List.replicate (blockSize v - lengthFieldSize v) 0x61) [],
    List.replicate (blockSize v - lengthFieldSize v) 0x61, holding_holds v _ _ ?_, ?_⟩ <;> cases v <;> decide

/-- P2's chunks, on an instance that has just finalized another message. -/
theorem witness_HashProtocolGivesDigest : ∀ v : Variant, ∃ (s : State) (chunks : List (List Byte)),
    s.phase ≠ .faulted ∧ s.pending = none ∧ s.host = hashActions v chunks ++ [.reset] ∧
    (∀ d ∈ chunks, d.length < 2 ^ 24) ∧ 8 * chunks.flatten.length < counterBound v := by
  intro v
  exact ⟨finalized (hashActions v [[], [0x61], [0x62, 0x63]] ++ [.reset]), [[], [0x61], [0x62, 0x63]], nofun, rfl, rfl,
    by decide, by cases v <;> decide⟩

/-- Every variant: the last message that fits, and one byte more. -/
theorem witness_MessageLengthBound : ∀ v : Variant, ∀ data ∈ ([[0x61], [0x61, 0x62]] : List (List Byte)),
    ∃ (s : State) (msg : List Byte), s.HoldsMessage v msg ∧ s.host = payloads data ++ [.reset] ∧
      msg.length + 1 = if v = .v256 then 2 ^ 61 - 1 else 2 ^ 125 - 1 := by
  intro v data _
  refine ⟨holding v (List.replicate (counterBound v / 8 - 2) 0x61) (payloads data ++ [.reset]), _,
    holding_holds v _ _ ?_, rfl, ?_⟩ <;> rw [List.length_replicate] <;> cases v <;> decide

end Sys2Proof.Tests
end

section
/-! Words and their bytes (R12, R63): the value of a word read from as many bytes as it holds, and that reading and
writing are inverse, for every width of whole bytes. -/

namespace Sys2Proof.Machine

/-- As many bytes as the word holds: nothing of their number is lost. -/
theorem toNat_wordOfBE {w : Nat} {bytes : List Byte} (h : 8 * bytes.length = w) :
    (wordOfBE w bytes).toNat = beNat bytes := by
  have hlt : beNat bytes < 2 ^ w := by
    rw [← h, Nat.pow_mul]
    exact beNat_lt bytes
  rw [wordOfBE, BitVec.toNat_ofNat, Nat.mod_eq_of_lt hlt]

/-- R12's sum: byte `i` of `n` counts `2 ^ (8 * (n - 1) - 8 * i)`. -/
theorem beNat_eq_sum (bytes : List Byte) :
    beNat bytes =
      ((List.range bytes.length).map fun i => (bytes.getD i 0).toNat * 2 ^ (8 * (bytes.length - 1) - 8 * i)).sum := by
  induction bytes with
  | nil => rfl
  | cons x bytes ih =>
    have hexp (i : Nat) : 8 * bytes.length - 8 * (i + 1) = 8 * (bytes.length - 1) - 8 * i := by omega
    rw [beNat_cons, ih, List.length_cons, List.range_succ_eq_map]
    simp [Function.comp_def, hexp, Nat.pow_mul]

/-- Among byte sequences of one length, only one stands for a given number: the last byte is its remainder by 256, and
the bytes before it stand for the quotient. -/
theorem eq_of_beNat_eq {a b : List Byte} (hlen : a.length = b.length) (h : beNat a = beNat b) : a = b := by
  induction a using List.reverseRecOn generalizing b with
  | nil => exact (List.length_eq_zero_iff.mp hlen.symm).symm
  | append_singleton a x ih =>
    obtain rfl | ⟨b, y, rfl⟩ := List.eq_nil_or_concat' b
    · simp at hlen
    · rw [beNat_append_singleton, beNat_append_singleton] at h
      have hx := x.isLt
      have hy := y.isLt
      have hinit : a = b := ih (by simpa using hlen) (by omega)
      have hlast : x = y := BitVec.eq_of_toNat_eq (by omega)
      rw [hinit, hlast]

/-- Reading undoes writing. -/
theorem wordOfBE_bytesBE {w : Nat} (x : BitVec w) (h : w % 8 = 0) : wordOfBE w (bytesBE x) = x := by
  rw [wordOfBE, beNat_bytesBE x h, BitVec.ofNat_toNat, BitVec.setWidth_eq]

/-- Writing undoes reading: both sequences have one length and stand for one number. -/
theorem bytesBE_wordOfBE {w : Nat} {bytes : List Byte} (h : 8 * bytes.length = w) :
    bytesBE (wordOfBE w bytes) = bytes := by
  apply eq_of_beNat_eq
  · rw [length_bytesBE]
    omega
  · rw [beNat_bytesBE _ (by omega), toNat_wordOfBE h]

/-- Settles O45: R12's two sums are `beNat_eq_sum` at 4 and at 8 bytes, and reading and writing are
inverse at every width of whole bytes. -/
theorem bigEndianWords : Obligations.BigEndianWords := by
  unfold Obligations.BigEndianWords
  refine ⟨fun a b c d => ?_, fun bytes h => ?_,
    fun x => ⟨length_bytesBE x, wordOfBE_bytesBE x rfl⟩, fun x => ⟨length_bytesBE x, wordOfBE_bytesBE x rfl⟩,
    fun bytes h => bytesBE_wordOfBE (by rw [h]), fun bytes h => bytesBE_wordOfBE (by rw [h])⟩
  · have h : 8 * [a, b, c, d].length = 32 := rfl
    rw [toNat_wordOfBE h]
    simp [beNat_eq_sum, List.range_succ, Nat.add_assoc]
  · rw [toNat_wordOfBE (by rw [h]), beNat_eq_sum, h]

end Sys2Proof.Machine
end

section
/-! The phases (R36) and the values after reset (R47): what a step does on each host action, and what the acceptance
checks answer in a phase that holds no context. -/

namespace Sys2Proof.Machine

/-! ## One equation a case of a step -/

theorem step_of_pending {s : State} {n : Nat} (hp : s.pending = some n) :
    step s = exec (.update n) { s with pending := none } := by
  simp [step, fetch, hp]

theorem step_of_idle {s : State} (hp : s.pending = none) (hh : s.host = []) : step s = .next s := by
  simp [step, fetch, hp, hh]

theorem step_of_command {s : State} {cmd : Word32} {rest : List HostAction} {i : Instr} (hp : s.pending = none)
    (hh : s.host = .command cmd :: rest) (hd : decode cmd = .command i) : step s = exec i { s with host := rest } := by
  simp [step, fetch, hp, hh, hd]

theorem step_of_reset {s : State} {rest : List HostAction} (hp : s.pending = none) (hh : s.host = .reset :: rest) :
    step s = .next { s with host := rest }.applyReset := by
  simp [step, fetch, hp, hh]

theorem step_of_illegal {s : State} {cmd : Word32} {rest : List HostAction} {e : IllegalWord} (hp : s.pending = none)
    (hh : s.host = .command cmd :: rest) (hd : decode cmd = .illegal e) :
    step s = .next ({ s with host := rest }.rejectWord e) := by
  simp [step, fetch, hp, hh, hd]

theorem step_of_resetDuring {s : State} {cmd : Word32} {data : List Byte} {rest : List HostAction}
    (hp : s.pending = none) (hh : s.host = .resetDuring cmd data :: rest)
    (hl : data.length ≤ payloadLength (decode cmd)) :
    step s =
      .next { s with host := discardPayload (payloadLength (decode cmd) - data.length) rest }.applyReset := by
  simp [step, fetch, hp, hh, hl]

/-! ## Reset -/

/-- Every field of the context after reset reads as zero (R47). -/
theorem Ctx32.zero_values : (∀ i : Fin 8, Ctx32.zero.H[i] = 0) ∧ Ctx32.zero.bitLength = 0 ∧
    (∀ i : Fin 64, Ctx32.zero.buf[i] = 0x00) ∧ Ctx32.zero.bufferLen.val = 0 :=
  ⟨fun i => by simp [Ctx32.zero], rfl, fun i => by simp [Ctx32.zero], rfl⟩

/-- Settles O12: the step that takes a reset answers `applyReset`, whose fields are those of `State.reset`, and whose
trace ends in the one new event. -/
theorem resetStateValues : Obligations.ResetStateValues := by
  unfold Obligations.ResetStateValues
  refine ⟨?_, fun s rest hp hh => ⟨_, step_of_reset hp hh, rfl⟩⟩
  rintro t (rfl | ⟨s, rest, hp, hh, ht⟩)
  · exact ⟨rfl, rfl, rfl, ⟨_, rfl, Ctx32.zero_values⟩, rfl⟩
  · rw [step_of_reset hp hh, Host.Outcome.next.injEq] at ht
    subst ht
    exact ⟨rfl, rfl, rfl, ⟨_, rfl, Ctx32.zero_values⟩, by simp⟩

/-! ## The phase table -/

/-- A command that needs a context, in a phase that holds none: the two faults of R295 and R296, and the answer of
R300. -/
theorem accept_true_phases (s : State) (f : State → State) :
    (s.phase = .uninitialized → (s.accept true f).phase = .faulted ∧ (s.accept true f).faultCode = 0x01) ∧
    (s.phase = .finalized → (s.accept true f).phase = .faulted ∧ (s.accept true f).faultCode = 0x02) ∧
    (s.phase = .faulted → (s.accept true f).phase = .faulted ∧ (s.accept true f).rsp = s.rsp ++ [0x06]) := by
  refine ⟨fun h => ?_, fun h => ?_, fun h => ?_⟩
  · rw [accept_of_uninitialized h]; exact ⟨rfl, rfl⟩
  · rw [accept_of_finalized h]; exact ⟨rfl, rfl⟩
  · rw [accept_of_faulted h]; exact ⟨h, rfl⟩

theorem exec_finalize (s : State) : exec .finalize s = .next (s.accept true State.finalize) := rfl

/-- FINALIZE's last action (R260). -/
theorem finalize_phase (s : State) : s.finalize.phase = .finalized := by
  obtain ⟨passes, digest, -, e⟩ := finalize_frame s
  rw [e]

/-- The three INIT commands are the INITs of the three variants. -/
theorem exists_initOf {i : Instr} (h : i ∈ ([.init256, .init512, .init384] : List Instr)) : ∃ v, i = initOf v := by
  simp only [List.mem_cons, List.not_mem_nil, or_false] at h
  rcases h with rfl | rfl | rfl
  · exact ⟨.v256, rfl⟩
  · exact ⟨.v512, rfl⟩
  · exact ⟨.v384, rfl⟩

/-- The row of INIT. -/
theorem initOf_phase (v : Variant) (s : State) : ∃ t, exec (initOf v) s = .next t ∧
    (s.phase ≠ .faulted → t.phase = .initialized) ∧
    (s.phase = .faulted → t.phase = .faulted ∧ t.rsp = s.rsp ++ [0x06]) := by
  refine ⟨_, exec_initOf v s, fun h => ?_, fun h => ?_⟩
  · rw [accept_false_of_not_faulted h]; rfl
  · rw [accept_of_faulted h]; exact ⟨h, rfl⟩

/-- The row of an illegal word: it leaves every phase for Faulted, and Faulted stays. -/
theorem rejectWord_phase (s : State) (e : IllegalWord) :
    (s.rejectWord e).phase = .faulted ∧ (s.phase = .faulted → (s.rejectWord e).rsp = s.rsp ++ [0x06]) := by
  by_cases h : s.phase = .faulted
  · rw [rejectWord_of_faulted h]; exact ⟨h, fun _ => rfl⟩
  · rw [rejectWord_of_not_faulted h]; exact ⟨rfl, fun h' => absurd h' h⟩

/-- Settles O36: one row of R36's table for each kind of command, and one for reset. -/
theorem phaseTable : Obligations.PhaseTable := by
  unfold Obligations.PhaseTable
  refine fun s => ⟨fun i hi => ?_, fun data rest hh => ?_, ?_, fun cmd rest e hp hh hd => ?_, fun rest hp hh => ?_⟩
  · obtain ⟨v, rfl⟩ := exists_initOf hi
    exact initOf_phase v s
  · obtain ⟨hu, hz, hf⟩ := accept_true_phases { s with host := rest } (fun s => s.update data)
    refine ⟨_, execUpdate_of_payloads hh, hu, fun hl hr => ?_, fun hl hr => ?_, hz, hf⟩
    · rw [accept_of_live (by exact hl)]
      exact update_phase (by exact hr)
    · rw [accept_of_live (by exact hl), update_of_no_room (by exact hr)]
      exact ⟨rfl, rfl⟩
  · obtain ⟨hu, hz, hf⟩ := accept_true_phases s State.finalize
    refine ⟨_, exec_finalize s, hu, fun hl => ?_, hz, hf⟩
    rw [accept_of_live hl]
    exact finalize_phase s
  · obtain ⟨hph, hrsp⟩ := rejectWord_phase { s with host := rest } e
    exact ⟨_, step_of_illegal hp hh hd, hph, hrsp⟩
  · exact ⟨_, step_of_reset hp hh, rfl⟩

end Sys2Proof.Machine
end

section
/-! What goes out (R40, R99): every step appends events a CORE can emit to the trace, and to RSP the bytes of their
responses. -/

namespace Sys2Proof.Machine

/-- From `s` to `t` the trace gains sound events, and RSP gains exactly their bytes. -/
def State.Emits (s t : State) : Prop :=
  ∃ events : List Event, t.trace = s.trace ++ events ∧ t.rsp = s.rsp ++ events.flatMap Event.rspBytes ∧
    ∀ e ∈ events, e.Sound

theorem State.Emits.of_eq {s t : State} (htrace : t.trace = s.trace) (hrsp : t.rsp = s.rsp) : s.Emits t :=
  ⟨[], by simp [htrace], by simp [hrsp], by simp⟩

/-- A response without data. -/
theorem emits_respond (s : State) (status : Status) : s.Emits (s.respond status []) :=
  ⟨[.response status []], rfl, rfl, by simp [Event.Sound]⟩

theorem emits_raiseFault (s : State) (code : Status) : s.Emits (s.raiseFault code) :=
  ⟨[.response code []], rfl, rfl, by simp [Event.Sound]⟩

theorem emits_initialize (s : State) (v : Variant) (c : Context) : s.Emits (s.initialize v c) :=
  ⟨[.response .ok []], rfl, rfl, by simp [Event.Sound]⟩

theorem emits_applyReset (s : State) : s.Emits s.applyReset :=
  ⟨[.reset], rfl, by simp [Event.rspBytes], by simp [Event.Sound]⟩

theorem emits_rejectWord (s : State) (e : IllegalWord) : s.Emits (s.rejectWord e) := by
  by_cases h : s.phase = .faulted
  · rw [rejectWord_of_faulted h]; exact emits_respond s _
  · rw [rejectWord_of_not_faulted h]; exact emits_raiseFault s _

/-- Passes and then one response, whose data is sound: what UPDATE and FINALIZE emit. -/
theorem State.Emits.of_passes {s t : State} {passes : List Event} {status : Status} {data : List Byte}
    (hpass : ∀ e ∈ passes, e.Sound ∧ e.rspBytes = []) (hdata : (Event.response status data).Sound)
    (htrace : t.trace = s.trace ++ passes ++ [.response status data]) (hrsp : t.rsp = s.rsp ++ status.code :: data) :
    s.Emits t := by
  have hnone : passes.flatMap Event.rspBytes = [] := List.flatMap_eq_nil_iff.mpr fun e he => (hpass e he).2
  refine ⟨passes ++ [.response status data], by simp [htrace], ?_, fun e he => ?_⟩
  · rw [hrsp, List.flatMap_append, hnone]
    simp [Event.rspBytes]
  · rw [List.mem_append, List.mem_singleton] at he
    rcases he with he | rfl
    · exact (hpass e he).1
    · exact hdata

/-- Sound passes of the 32-bit core as events. -/
theorem sound_map_compress32 {passes : List (Pass 32 Config.blockBytes32)}
    (h : ∀ p ∈ passes, p.hout = compress32 p.hin p.block) :
    ∀ e ∈ passes.map Event.compress32, e.Sound ∧ e.rspBytes = [] := by
  intro e he
  obtain ⟨p, hp, rfl⟩ := List.mem_map.mp he
  exact ⟨h p hp, rfl⟩

/-- Sound passes of the 64-bit core as events. -/
theorem sound_map_compress64 {passes : List (Pass 64 Config.blockBytes64)}
    (h : ∀ p ∈ passes, p.hout = compress64 p.hin p.block) :
    ∀ e ∈ passes.map Event.compress64, e.Sound ∧ e.rspBytes = [] := by
  intro e he
  obtain ⟨p, hp, rfl⟩ := List.mem_map.mp he
  exact ⟨h p hp, rfl⟩

theorem emits_update (s : State) (data : List Byte) : s.Emits (s.update data) := by
  by_cases hr : s.HasRoom data.length
  · cases hc : s.ctx with
    | ctx32 c =>
      rw [update_of_ctx32 hc hr]
      exact .of_passes (sound_map_compress32 (absorbAll_sound data _ _)) (.inl rfl) rfl rfl
    | ctx64 c =>
      rw [update_of_ctx64 hc hr]
      exact .of_passes (sound_map_compress64 (absorbAll_sound data _ _)) (.inl rfl) rfl rfl
  · rw [update_of_no_room hr]
    exact emits_raiseFault s _

/-! ## FINALIZE -/

/-- FINALIZE on a Ctx32. -/
theorem finalize_of_ctx32 {s : State} {c : Ctx32} (hc : s.ctx = .ctx32 c) :
    s.finalize =
      s.finish ((c.toStream.finalPasses compress32 (bytesBE c.bitLength)).passes.map Event.compress32)
        (truncateDigest s.variant (serialize (c.toStream.finalPasses compress32 (bytesBE c.bitLength)).H)) := by
  simp [State.finalize, hc]

/-- FINALIZE on a Ctx64. -/
theorem finalize_of_ctx64 {s : State} {c : Ctx64} (hc : s.ctx = .ctx64 c) :
    s.finalize =
      s.finish ((c.toStream.finalPasses compress64 (bytesBE c.bitLengthHi ++ bytesBE c.bitLengthLo)).passes.map
          Event.compress64)
        (truncateDigest s.variant (serialize
          (c.toStream.finalPasses compress64 (bytesBE c.bitLengthHi ++ bytesBE c.bitLengthLo)).H)) := by
  simp [State.finalize, hc]

/-- Truncation cuts a digest of 64 bytes to 48, or leaves it (R258). -/
theorem length_truncateDigest (v : Variant) {digest : List Byte} (h : digest.length = 32 ∨ digest.length = 64) :
    (truncateDigest v digest).length ∈ ([32, 48, 64] : List Nat) := by
  cases v <;> rcases h with h | h <;> simp [truncateDigest, Config.digestBytes384, h]

/-- Whatever the variant, a serialized chaining value is a digest of one of the three lengths after truncation. -/
theorem sound_digest {w : Nat} (hw : w = 32 ∨ w = 64) (v : Variant) (H : Vector (BitVec w) 8) :
    (Event.response .ok (truncateDigest v (serialize H))).Sound := by
  refine .inr ⟨rfl, length_truncateDigest v ?_⟩
  rw [length_serialize]
  omega

theorem emits_finalize (s : State) : s.Emits s.finalize := by
  cases hc : s.ctx with
  | ctx32 c =>
    rw [finalize_of_ctx32 hc]
    exact .of_passes (sound_map_compress32 (finalPasses_sound _ _)) (sound_digest (.inl rfl) _ _) rfl rfl
  | ctx64 c =>
    rw [finalize_of_ctx64 hc]
    exact .of_passes (sound_map_compress64 (finalPasses_sound _ _)) (sound_digest (.inr rfl) _ _) rfl rfl

/-! ## Commands and steps -/

theorem exec_emits {i : Instr} {s t : State} (h : exec i s = .next t) : s.Emits t := by
  obtain ⟨rest, ⟨-, rfl⟩ | ⟨-, code, -, -, rfl⟩ | ⟨-, v, -, rfl⟩ | ⟨-, data, -, -, -, rfl⟩ | ⟨-, -, rfl⟩ | ⟨n, -, rfl⟩ |
    ⟨-, rfl⟩⟩ := exec_cases h
  · exact emits_respond { s with host := rest } _
  · exact emits_raiseFault { s with host := rest } _
  · exact emits_initialize { s with host := rest } _ _
  · exact emits_update { s with host := rest } _
  · exact emits_finalize { s with host := rest }
  · exact .of_eq rfl rfl
  · exact emits_applyReset { s with host := rest }

theorem step_emits {s t : State} (h : step s = .next t) : s.Emits t := by
  obtain ⟨n, -, hx⟩ | ⟨-, ⟨-, rfl⟩ | ⟨cmd, rest, i, -, -, hx⟩ | ⟨cmd, rest, e, -, -, rfl⟩ | ⟨rest, -, rfl⟩ |
    ⟨cmd, data, rest, -, -, rfl⟩⟩ := step_cases h
  · exact exec_emits (s := { s with pending := none }) hx
  · exact .of_eq rfl rfl
  · exact exec_emits (s := { s with host := rest }) hx
  · exact emits_rejectWord { s with host := rest } e
  · exact emits_applyReset { s with host := rest }
  · exact emits_applyReset { s with host := discardPayload _ rest }

/-- Settles O38: what a step emits stands behind what is there. -/
theorem traceAndResponsesOnlyGrow : Obligations.TraceAndResponsesOnlyGrow := by
  unfold Obligations.TraceAndResponsesOnlyGrow
  intro s t h
  obtain ⟨events, htrace, hrsp, -⟩ := step_emits h
  exact ⟨⟨events, htrace.symm⟩, ⟨_, hrsp.symm⟩⟩

end Sys2Proof.Machine
end

section
/-! The invariant (State.Inv): it holds after reset, and every operation, command and step keeps it. -/

namespace Sys2Proof.Machine

/-! ## The fields of the invariant -/

theorem shapeMatches_of_ctx32 {s : State} {c : Ctx32} (hc : s.ctx = .ctx32 c) :
    s.shapeMatches = true ↔ s.variant = .v256 := by
  cases hv : s.variant <;> simp [State.shapeMatches, hc, hv]

theorem shapeMatches_of_ctx64 {s : State} {c : Ctx64} (hc : s.ctx = .ctx64 c) :
    s.shapeMatches = true ↔ s.variant ≠ .v256 := by
  cases hv : s.variant <;> simp [State.shapeMatches, hc, hv]

theorem State.FaultCodeMatches.of_not_faulted {s : State} (hp : s.phase ≠ .faulted) (hf : s.faultCode = 0x00) :
    s.FaultCodeMatches :=
  ⟨fun _ => hf, fun h => absurd h hp⟩

/-- In a phase that holds a context, and in Faulted, R46 asks for nothing. -/
theorem State.ZeroWhenUnused.of_used {s : State} (hu : s.phase ≠ .uninitialized) (hf : s.phase ≠ .finalized) :
    s.ZeroWhenUnused :=
  fun h => h.elim (absurd · hu) (absurd · hf)

theorem counterMatches_zero : (Context.ctx32 Ctx32.zero).CounterMatches := ⟨rfl, rfl⟩

theorem counterMatches_initialContext (v : Variant) : (initialContext v).CounterMatches := by
  cases v <;> exact ⟨rfl, rfl⟩

/-- `n` more bytes, of 8 bits each, move the counter and `buffer_len` together (R219, R224). -/
theorem counter_add {bits len bs : Nat} (n : Nat) (hbytes : bits % 8 = 0) (hlen : len = bits / 8 % bs) :
    (bits + 8 * n) % 8 = 0 ∧ (len + n) % bs = (bits + 8 * n) / 8 % bs := by
  rw [hlen, Nat.mod_add_mod, Nat.add_mul_div_left bits n (by decide : 0 < 8)]
  exact ⟨by omega, rfl⟩

/-- The 32-bit counter and `buffer_len` count the same bytes after UPDATE's loop as before it (R219, R224). -/
theorem counterMatches_absorb32 {c : Ctx32} (h : (Context.ctx32 c).CounterMatches) (k : Nat) {data : List Byte}
    (hr : c.bits + 8 * data.length < 2 ^ 64) :
    (Context.ctx32 { (absorbAll compress32 c.toStream k data).stream with
      bitLength := countBits32 c data.length }).CounterMatches := by
  obtain ⟨-, hpos⟩ := absorbAll_count (compress := compress32) data c.toStream k
  have hbits : (countBits32 c data.length).toNat = c.bits + 8 * data.length := countBits32_toNat hr
  simp only [Context.CounterMatches]
  rw [hpos, Ctx32.bits, hbits]
  exact counter_add data.length h.1 h.2

/-- The 128-bit counter and `buffer_len` count the same bytes after UPDATE's loop as before it (R220, R224). -/
theorem counterMatches_absorb64 {c : Ctx64} (h : (Context.ctx64 c).CounterMatches) (k : Nat) {data : List Byte}
    (hn : data.length < 2 ^ 24) (hr : c.bits + 8 * data.length < 2 ^ 128) :
    (Context.ctx64 { (absorbAll compress64 c.toStream k data).stream with
      bitLengthHi := countBitsHi c.bitLengthHi c.bitLengthLo data.length
      bitLengthLo := countBitsLo c.bitLengthLo data.length }).CounterMatches := by
  obtain ⟨-, hpos⟩ := absorbAll_count (compress := compress64) data c.toStream k
  have hbits : (countBitsHi c.bitLengthHi c.bitLengthLo data.length).toNat * 2 ^ 64 +
      (countBitsLo c.bitLengthLo data.length).toNat = c.bits + 8 * data.length := countBits64_toNat hn hr
  simp only [Context.CounterMatches]
  rw [hpos, Ctx64.bits, hbits]
  exact counter_add data.length h.1 h.2

/-! ## The operations -/

theorem State.Inv.setHost {s : State} (h : s.Inv) (rest : List HostAction) : State.Inv { s with host := rest } :=
  ⟨h.shape, h.faultCode, h.zero, h.counter, h.rsp, h.trace, h.pending⟩

theorem State.Inv.setPending {s : State} (h : s.Inv) {p : Option Nat} (hp : ∀ n, p = some n → n < 2 ^ Config.lenBits) :
    State.Inv { s with pending := p } :=
  ⟨h.shape, h.faultCode, h.zero, h.counter, h.rsp, h.trace, hp⟩

/-- What a step emits keeps the two fields about the trace and RSP; the others are about the control registers and the
context. -/
theorem State.Inv.of_emits {s t : State} (h : s.Inv) (he : s.Emits t) (shape : t.shapeMatches = true)
    (faultCode : t.FaultCodeMatches) (zero : t.ZeroWhenUnused) (counter : t.ctx.CounterMatches)
    (pending : ∀ n, t.pending = some n → n < 2 ^ Config.lenBits) : t.Inv := by
  obtain ⟨events, htrace, hrsp, hsound⟩ := he
  refine ⟨shape, faultCode, zero, counter, ?_, fun e he => ?_, pending⟩
  · rw [htrace, hrsp, h.rsp, List.flatMap_append]
  · rw [htrace, List.mem_append] at he
    exact he.elim (h.trace e) (hsound e)

theorem State.Inv.respond {s : State} (h : s.Inv) (status : Status) : (s.respond status []).Inv :=
  h.of_emits (emits_respond s status) h.shape h.faultCode h.zero h.counter h.pending

theorem State.Inv.raiseFault {s : State} (h : s.Inv) {code : Status} (hok : code ≠ .ok) (hf : code ≠ .errFaulted) :
    (s.raiseFault code).Inv :=
  h.of_emits (emits_raiseFault s code) h.shape ⟨fun hp => absurd rfl hp, fun _ => Status.code_mem hok hf⟩
    (.of_used (by simp) (by simp)) h.counter h.pending

theorem State.Inv.rejectWord {s : State} (h : s.Inv) (e : IllegalWord) : (s.rejectWord e).Inv := by
  by_cases hp : s.phase = .faulted
  · rw [rejectWord_of_faulted hp]
    exact h.respond _
  · obtain ⟨hok, hf⟩ := illegalStatus_ne e
    rw [rejectWord_of_not_faulted hp]
    exact h.raiseFault hok hf

theorem State.Inv.applyReset {s : State} (h : s.Inv) : s.applyReset.Inv :=
  h.of_emits (emits_applyReset s) rfl (.of_not_faulted (by simp) rfl) (fun _ => ⟨rfl, rfl⟩) counterMatches_zero (by simp)

theorem State.Inv.init {s : State} (h : s.Inv) (hp : s.phase ≠ .faulted) (v : Variant) :
    (s.initialize v (initialContext v)).Inv :=
  h.of_emits (emits_initialize s v _) (by cases v <;> rfl) (.of_not_faulted (by simp) (h.faultCode.1 hp))
    (.of_used (by simp) (by simp)) (counterMatches_initialContext v) h.pending

theorem State.Live.not_faulted {s : State} (h : s.Live) : s.phase ≠ .faulted := by
  rcases h with h | h <;> simp [h]

theorem State.Inv.update {s : State} (h : s.Inv) (hl : s.Live) {data : List Byte} (hn : data.length < 2 ^ 24)
    (hr : s.HasRoom data.length) : (s.update data).Inv := by
  have hcode := h.faultCode.1 hl.not_faulted
  have hcount := h.counter
  have hshape := h.shape
  have hem := emits_update s data
  cases hc : s.ctx with
  | ctx32 c =>
    rw [shapeMatches_of_ctx32 hc] at hshape
    rw [hc] at hcount
    rw [update_of_ctx32 hc hr] at hem ⊢
    rw [State.HasRoom, hc] at hr
    exact h.of_emits hem ((shapeMatches_of_ctx32 rfl).mpr hshape) (.of_not_faulted (by simp) hcode)
      (.of_used (by simp) (by simp)) (counterMatches_absorb32 hcount _ hr) h.pending
  | ctx64 c =>
    rw [shapeMatches_of_ctx64 hc] at hshape
    rw [hc] at hcount
    rw [update_of_ctx64 hc hr] at hem ⊢
    rw [State.HasRoom, hc] at hr
    exact h.of_emits hem ((shapeMatches_of_ctx64 rfl).mpr hshape) (.of_not_faulted (by simp) hcode)
      (.of_used (by simp) (by simp)) (counterMatches_absorb64 hcount _ hn hr) h.pending

theorem State.Inv.finalize {s : State} (h : s.Inv) (hl : s.Live) : s.finalize.Inv := by
  have hem := emits_finalize s
  obtain ⟨passes, digest, -, e⟩ := finalize_frame s
  rw [e] at hem ⊢
  exact h.of_emits hem rfl (.of_not_faulted (by simp) (h.faultCode.1 hl.not_faulted)) (fun _ => ⟨rfl, rfl⟩)
    counterMatches_zero h.pending

/-! ## Commands and steps -/

/-- A command that a word carries is well-formed (R94): UPDATE's length is a 24-bit field. -/
theorem decode_wellFormed {cmd : Word32} {i : Instr} (h : decode cmd = .command i) : i.wellFormed = true := by
  cases i with
  | update n =>
    rw [decode_eq] at h
    have hn : cmd.toNat % 2 ^ 24 = n := by
      split_ifs at h <;> simp at h
      exact h
    rw [wellFormed_update, ← hn]
    exact Nat.mod_lt _ (by decide)
  | init256 => rfl
  | init512 => rfl
  | init384 => rfl
  | finalize => rfl

theorem State.Inv.exec {s t : State} {i : Instr} (h : s.Inv) (hi : i.wellFormed = true)
    (hx : Machine.exec i s = .next t) : t.Inv := by
  obtain ⟨rest, ⟨-, rfl⟩ | ⟨-, code, hok, hf, rfl⟩ | ⟨hp, v, -, rfl⟩ | ⟨hl, data, rfl, -, hr, rfl⟩ | ⟨hl, -, rfl⟩ |
    ⟨n, rfl, rfl⟩ | ⟨-, rfl⟩⟩ := exec_cases hx
  · exact (h.setHost rest).respond _
  · exact (h.setHost rest).raiseFault hok hf
  · exact (h.setHost rest).init hp v
  · exact (h.setHost rest).update hl ((wellFormed_update _).mp hi) hr
  · exact (h.setHost rest).finalize hl
  · refine h.setPending fun m hm => ?_
    obtain rfl := Option.some.inj hm
    exact (wellFormed_update n).mp hi
  · exact (h.setHost rest).applyReset

theorem State.Inv.step {s t : State} (h : s.Inv) (hx : Machine.step s = .next t) : t.Inv := by
  obtain ⟨n, hp, hx⟩ | ⟨-, ⟨-, rfl⟩ | ⟨cmd, rest, i, -, hd, hx⟩ | ⟨cmd, rest, e, -, -, rfl⟩ | ⟨rest, -, rfl⟩ |
    ⟨cmd, data, rest, -, -, rfl⟩⟩ := step_cases hx
  · exact (h.setPending (by simp)).exec ((wellFormed_update n).mpr (h.pending n hp)) hx
  · exact h
  · exact (h.setHost rest).exec (decode_wellFormed hd) hx
  · exact (h.setHost rest).rejectWord e
  · exact (h.setHost rest).applyReset
  · exact (h.setHost _).applyReset

/-- Settles O40, by the cases of a step, each of which is an operation that keeps the invariant. -/
theorem stepKeepsInv : Obligations.StepKeepsInv := by
  unfold Obligations.StepKeepsInv
  exact fun _ _ h hx => h.step hx

/-- Settles O39: every field is read off the reset values. -/
theorem invHoldsAtReset : Obligations.InvHoldsAtReset := by
  unfold Obligations.InvHoldsAtReset
  refine ⟨rfl, .of_not_faulted (by simp [State.reset]) rfl, fun _ => ⟨rfl, rfl⟩, counterMatches_zero, rfl, ?_,
    by simp [State.reset]⟩
  simp [State.reset, Event.Sound]

end Sys2Proof.Machine
end

section
/-! The message a context holds (R45, R67): INIT makes it empty, and UPDATE appends its payload. -/

namespace Sys2Proof.Machine

theorem State.HoldsMessage.setHost {s : State} {v : Variant} {msg : List Byte} (h : s.HoldsMessage v msg)
    (rest : List HostAction) : State.HoldsMessage { s with host := rest } v msg := h

/-- After INIT. -/
theorem holdsMessage_initialize (s : State) (v : Variant) :
    (s.initialize v (initialContext v)).HoldsMessage v [] := by
  refine ⟨.inl rfl, rfl, ?_⟩
  cases v with
  | v256 => exact ⟨_, rfl, absorbed_nil iv256 _ (by decide), rfl⟩
  | v512 => exact ⟨_, rfl, absorbed_nil iv512 _ (by decide), rfl⟩
  | v384 => exact ⟨_, rfl, absorbed_nil iv384 _ (by decide), rfl⟩

/-- The counter is 8 times the length of the message held, and its bound is the variant's. -/
theorem State.HoldsMessage.bits {s : State} {v : Variant} {msg : List Byte} (h : s.HoldsMessage v msg) :
    s.ctx.bits = 8 * msg.length ∧ s.ctx.bound = counterBound v := by
  obtain ⟨-, -, hctx⟩ := h
  cases v with
  | v256 =>
    obtain ⟨c, hc, -, hb⟩ := hctx
    rw [hc]
    exact ⟨hb, rfl⟩
  | v512 =>
    obtain ⟨c, hc, -, hb⟩ := hctx
    rw [hc]
    exact ⟨hb, rfl⟩
  | v384 =>
    obtain ⟨c, hc, -, hb⟩ := hctx
    rw [hc]
    exact ⟨hb, rfl⟩

theorem State.HoldsMessage.hasRoom {s : State} {v : Variant} {msg : List Byte} (h : s.HoldsMessage v msg) {n : Nat}
    (hn : 8 * (msg.length + n) < counterBound v) : s.HasRoom n := by
  obtain ⟨hbits, hbound⟩ := h.bits
  rw [State.HasRoom, hbits, hbound]
  omega

/-- UPDATE's effect on a Ctx32 that holds a message. -/
theorem update_absorbed32 {s : State} {c : Ctx32} {iv : Vector Word32 8} {msg data : List Byte}
    (hc : s.ctx = .ctx32 c) (ha : c.toStream.Absorbed compress32 iv msg) (hb : c.bits = 8 * msg.length)
    (hr : s.HasRoom data.length) :
    ∃ d, (s.update data).ctx = .ctx32 d ∧ d.toStream.Absorbed compress32 iv (msg ++ data) ∧
      d.bits = 8 * (msg ++ data).length := by
  rw [update_of_ctx32 hc hr]
  rw [State.HasRoom, hc] at hr
  refine ⟨_, rfl, absorbed_absorbAll data s.draws ha, ?_⟩
  calc (countBits32 c data.length).toNat
    _ = c.bits + 8 * data.length := countBits32_toNat hr
    _ = 8 * (msg ++ data).length := by rw [hb, List.length_append, Nat.mul_add]

/-- UPDATE's effect on a Ctx64 that holds a message. -/
theorem update_absorbed64 {s : State} {c : Ctx64} {iv : Vector Word64 8} {msg data : List Byte}
    (hc : s.ctx = .ctx64 c) (ha : c.toStream.Absorbed compress64 iv msg) (hb : c.bits = 8 * msg.length)
    (hn : data.length < 2 ^ 24) (hr : s.HasRoom data.length) :
    ∃ d, (s.update data).ctx = .ctx64 d ∧ d.toStream.Absorbed compress64 iv (msg ++ data) ∧
      d.bits = 8 * (msg ++ data).length := by
  rw [update_of_ctx64 hc hr]
  rw [State.HasRoom, hc] at hr
  refine ⟨_, rfl, absorbed_absorbAll data s.draws ha, ?_⟩
  calc (countBitsHi c.bitLengthHi c.bitLengthLo data.length).toNat * 2 ^ 64 +
        (countBitsLo c.bitLengthLo data.length).toNat
    _ = c.bits + 8 * data.length := countBits64_toNat hn hr
    _ = 8 * (msg ++ data).length := by rw [hb, List.length_append, Nat.mul_add]

theorem State.HoldsMessage.update {s : State} {v : Variant} {msg data : List Byte} (h : s.HoldsMessage v msg)
    (hn : data.length < 2 ^ 24) (hr : s.HasRoom data.length) : (s.update data).HoldsMessage v (msg ++ data) := by
  obtain ⟨-, hv, hctx⟩ := h
  obtain ⟨hvariant, -, -⟩ := update_frame s data
  refine ⟨.inr (update_phase hr), hvariant.trans hv, ?_⟩
  cases v with
  | v256 =>
    obtain ⟨c, hc, ha, hb⟩ := hctx
    exact update_absorbed32 hc ha hb hr
  | v512 =>
    obtain ⟨c, hc, ha, hb⟩ := hctx
    exact update_absorbed64 hc ha hb hn hr
  | v384 =>
    obtain ⟨c, hc, ha, hb⟩ := hctx
    exact update_absorbed64 hc ha hb hn hr

/-- Settles O55: INIT's context is that of the empty message, and UPDATE's loop absorbs the payload behind the message
that is there. -/
theorem updateExtendsMessage : Obligations.UpdateExtendsMessage := by
  unfold Obligations.UpdateExtendsMessage
  refine ⟨fun s t v hp ht => ?_, fun s v msg data rest h hn hh hbound => ?_⟩
  · rw [exec_initOf, accept_false_of_not_faulted hp, Host.Outcome.next.injEq] at ht
    subst ht
    exact holdsMessage_initialize s v
  · exact ⟨_, exec_update_of_live h.1 hh, (h.setHost rest).update hn (h.hasRoom hbound)⟩

end Sys2Proof.Machine
end

section
/-! Stale buffer bytes (R41, R255): UPDATE's loop and FINALIZE's passes read no buffer byte at or beyond `buffer_len`.
The lemmas about streams hold for both cores at once. -/

namespace Sys2Proof.Machine

section Streams

variable {w bs : Nat} {compress : Vector (BitVec w) 8 → Vector Byte bs → Vector (BitVec w) 8}

/-- `b` is `a` but for buffer bytes at or beyond `buffer_len`. -/
def Stream.AgreesOnValid (a b : Stream w bs) : Prop :=
  ∃ buf : Vector Byte bs, b = { a with buf := buf } ∧ ∀ j : Fin bs, j.val < a.bufferLen.val → buf[j] = a.buf[j]

/-- The byte written at `buffer_len` is one more that agrees. -/
theorem getElem_set_bufferLen {a : Stream w bs} {buf : Vector Byte bs}
    (h : ∀ j : Fin bs, j.val < a.bufferLen.val → buf[j] = a.buf[j]) (x : Byte) (i : Nat) (hi : i < bs)
    (hle : i ≤ a.bufferLen.val) : (buf.set a.bufferLen.val x)[i] = (a.buf.set a.bufferLen.val x)[i] := by
  rw [Vector.getElem_set, Vector.getElem_set]
  by_cases e : a.bufferLen.val = i
  · rw [if_pos e, if_pos e]
  · rw [if_neg e, if_neg e]
    exact h ⟨i, hi⟩ (by simp; omega)

/-! ## UPDATE's loop -/

/-- One byte: short of a full block it is written behind the valid bytes of both streams; the byte that fills the block
leaves no byte stale, so both passes compress the same block. -/
theorem absorb_agreesOnValid {r q : Absorbing w bs} (hs : r.stream.AgreesOnValid q.stream) (hp : q.passes = r.passes)
    (x : Byte) : (r.absorb compress x).stream.AgreesOnValid (q.absorb compress x).stream ∧
      (q.absorb compress x).passes = (r.absorb compress x).passes := by
  obtain ⟨buf, hq, hv⟩ := hs
  have hset := getElem_set_bufferLen hv x
  have hlen : q.stream.bufferLen = r.stream.bufferLen := by rw [hq]
  rcases bufferLen_cases r.stream with hc | hc
  · rw [absorb_of_lt r x hc, absorb_of_lt q x (by rw [hlen]; exact hc)]
    refine ⟨⟨buf.set r.stream.bufferLen.val x, by simp only [hq], fun j hj => ?_⟩, hp⟩
    exact hset j.val j.isLt (by simp only at hj; omega)
  · have hblock : buf.set r.stream.bufferLen.val x = r.stream.buf.set r.stream.bufferLen.val x :=
      Vector.ext fun i hi => hset i hi (by omega)
    rw [absorb_of_full r x hc, absorb_of_full q x (by rw [hlen]; exact hc)]
    refine ⟨⟨staleBuffer bs q.draws, ?_, fun j hj => by simp at hj⟩, ?_⟩
    · simp only [hq, hblock]
    · simp only [hq, hblock, hp]

theorem foldl_absorb_agreesOnValid (data : List Byte) {r q : Absorbing w bs} (hs : r.stream.AgreesOnValid q.stream)
    (hp : q.passes = r.passes) :
    (data.foldl (Absorbing.absorb compress) r).stream.AgreesOnValid (data.foldl (Absorbing.absorb compress) q).stream ∧
      (data.foldl (Absorbing.absorb compress) q).passes = (data.foldl (Absorbing.absorb compress) r).passes := by
  induction data generalizing r q with
  | nil => exact ⟨hs, hp⟩
  | cons x data ih =>
    obtain ⟨hs', hp'⟩ := absorb_agreesOnValid (compress := compress) hs hp x
    exact ih hs' hp'

/-- The loop, from any two values of the counter of free values. -/
theorem absorbAll_agreesOnValid (data : List Byte) {a b : Stream w bs} (h : a.AgreesOnValid b) (k k' : Nat) :
    (absorbAll compress a k data).stream.AgreesOnValid (absorbAll compress b k' data).stream ∧
      (absorbAll compress b k' data).passes = (absorbAll compress a k data).passes :=
  foldl_absorb_agreesOnValid data (r := ⟨a, [], k⟩) (q := ⟨b, [], k'⟩) h rfl

/-! ## FINALIZE's passes -/

/-- Zero fill from the first byte that may differ hides the difference up to its end. -/
theorem getElem_bufZeroFill_congr {a b : Vector Byte bs} {lo hi : Nat}
    (h : ∀ (i : Nat) (hi : i < bs), i < lo → b[i] = a[i]) (i : Nat) (hbs : i < bs) (hlt : i < hi) :
    (bufZeroFill b lo hi)[i] = (bufZeroFill a lo hi)[i] := by
  rw [getElem_bufZeroFill, getElem_bufZeroFill]
  by_cases hlo : lo ≤ i
  · rw [if_pos ⟨hlo, hlt⟩, if_pos ⟨hlo, hlt⟩]
  · rw [if_neg (by omega), if_neg (by omega)]
    exact h i hbs (by omega)

/-- A field that reaches the end of the buffer hides every byte it covers. -/
theorem bufWriteBytes_congr {a b : Vector Byte bs} {start : Nat} {bytes : List Byte}
    (hend : bs ≤ start + bytes.length) (h : ∀ (i : Nat) (hi : i < bs), i < start → b[i] = a[i]) :
    bufWriteBytes b start bytes = bufWriteBytes a start bytes := by
  refine Vector.ext fun i hi => ?_
  rw [getElem_bufWriteBytes, getElem_bufWriteBytes]
  by_cases hs : start ≤ i
  · rw [if_pos hs, if_pos hs, List.getD_eq_getElem _ _ (by omega), List.getD_eq_getElem _ _ (by omega)]
  · rw [if_neg hs, if_neg hs]
    exact h i hi (by omega)

/-- The terminator stands at `buffer_len`, and every byte behind it is zero or of the length field. -/
theorem finalPasses_agreesOnValid {a b : Stream w bs} (h : a.AgreesOnValid b) (field : List Byte) :
    b.finalPasses compress field = a.finalPasses compress field := by
  obtain ⟨buf, rfl, hv⟩ := h
  have hset : ∀ (i : Nat) (hi : i < bs), i < a.bufferLen.val + 1 →
      (bufWrite buf a.bufferLen 0x80)[i] = (bufWrite a.buf a.bufferLen 0x80)[i] :=
    fun i hi hlt => getElem_set_bufferLen hv 0x80 i hi (by omega)
  by_cases hp : a.bufferLen.val + 1 > bs - field.length
  · have hfull : bufZeroFill (bufWrite buf a.bufferLen 0x80) (a.bufferLen.val + 1) bs =
        bufZeroFill (bufWrite a.buf a.bufferLen 0x80) (a.bufferLen.val + 1) bs :=
      Vector.ext fun i hi => getElem_bufZeroFill_congr hset i hi hi
    simp only [Stream.finalPasses, Stream.terminate, if_pos hp, hfull]
  · have hlast := bufWriteBytes_congr (bytes := field) (start := bs - field.length) (by omega) fun i hi hlt =>
      getElem_bufZeroFill_congr (hi := bs - field.length) hset i hi hlt
    simp only [Stream.finalPasses, Stream.terminate, if_neg hp, Padding.lastBlock, hlast]

end Streams

/-! ## The commands on both shapes -/

/-- Two contexts of the shape Ctx32 that differ in stale buffer bytes only. -/
def Context.Agrees32 (x y : Context) : Prop :=
  ∃ (c : Ctx32) (buf : Vector Byte 64), x = .ctx32 c ∧ y = .ctx32 { c with buf := buf } ∧
    ∀ j : Fin 64, j.val < c.bufferLen.val → buf[j] = c.buf[j]

/-- Two contexts of the shape Ctx64 that differ in stale buffer bytes only. -/
def Context.Agrees64 (x y : Context) : Prop :=
  ∃ (c : Ctx64) (buf : Vector Byte 128), x = .ctx64 c ∧ y = .ctx64 { c with buf := buf } ∧
    ∀ j : Fin 128, j.val < c.bufferLen.val → buf[j] = c.buf[j]

/-- The same trace, RSP and phase. -/
def State.SameOutput (t t' : State) : Prop := t'.trace = t.trace ∧ t'.rsp = t.rsp ∧ t'.phase = t.phase

theorem update_agrees32 {s : State} {c' : Context} (h : s.ctx.Agrees32 c') (k : Nat) (data : List Byte) :
    (s.update data).SameOutput (State.update { s with ctx := c', draws := k } data) ∧
      (s.update data).ctx.Agrees32 (State.update { s with ctx := c', draws := k } data).ctx := by
  obtain ⟨c, buf, hc, rfl, hv⟩ := h
  have hroom : State.HasRoom { s with ctx := .ctx32 { c with buf := buf }, draws := k } data.length ↔
      s.HasRoom data.length := by
    rw [State.HasRoom, State.HasRoom, hc]
    exact Iff.rfl
  by_cases hr : s.HasRoom data.length
  · obtain ⟨⟨buf', hstream, hvalid⟩, hpasses⟩ := absorbAll_agreesOnValid (compress := compress32) data
      (a := c.toStream) ⟨buf, rfl, hv⟩ s.draws k
    rw [update_of_ctx32 hc hr, update_of_ctx32 rfl (hroom.mpr hr), hpasses, hstream]
    exact ⟨⟨rfl, rfl, rfl⟩, _, buf', rfl, rfl, hvalid⟩
  · rw [update_of_no_room hr, update_of_no_room (hroom.not.mpr hr)]
    exact ⟨⟨rfl, rfl, rfl⟩, c, buf, hc, rfl, hv⟩

theorem update_agrees64 {s : State} {c' : Context} (h : s.ctx.Agrees64 c') (k : Nat) (data : List Byte) :
    (s.update data).SameOutput (State.update { s with ctx := c', draws := k } data) ∧
      (s.update data).ctx.Agrees64 (State.update { s with ctx := c', draws := k } data).ctx := by
  obtain ⟨c, buf, hc, rfl, hv⟩ := h
  have hroom : State.HasRoom { s with ctx := .ctx64 { c with buf := buf }, draws := k } data.length ↔
      s.HasRoom data.length := by
    rw [State.HasRoom, State.HasRoom, hc]
    exact Iff.rfl
  by_cases hr : s.HasRoom data.length
  · obtain ⟨⟨buf', hstream, hvalid⟩, hpasses⟩ := absorbAll_agreesOnValid (compress := compress64) data
      (a := c.toStream) ⟨buf, rfl, hv⟩ s.draws k
    rw [update_of_ctx64 hc hr, update_of_ctx64 rfl (hroom.mpr hr), hpasses, hstream]
    exact ⟨⟨rfl, rfl, rfl⟩, _, buf', rfl, rfl, hvalid⟩
  · rw [update_of_no_room hr, update_of_no_room (hroom.not.mpr hr)]
    exact ⟨⟨rfl, rfl, rfl⟩, c, buf, hc, rfl, hv⟩

/-- FINALIZE does not read a stale byte, and leaves none. -/
theorem finalize_agrees {s : State} {c' : Context} (h : s.ctx.Agrees32 c' ∨ s.ctx.Agrees64 c') (k : Nat) :
    State.finalize { s with ctx := c', draws := k } = { s.finalize with draws := k } := by
  obtain ⟨c, buf, hc, rfl, hv⟩ | ⟨c, buf, hc, rfl, hv⟩ := h
  · rw [finalize_of_ctx32 hc, finalize_of_ctx32 rfl,
      finalPasses_agreesOnValid (compress := compress32) (a := c.toStream) ⟨buf, rfl, hv⟩]
    rfl
  · rw [finalize_of_ctx64 hc, finalize_of_ctx64 rfl,
      finalPasses_agreesOnValid (compress := compress64) (a := c.toStream) ⟨buf, rfl, hv⟩]
    rfl

theorem exec_finalize_of_live {s : State} (h : s.Live) : exec .finalize s = .next s.finalize := by
  rw [exec_finalize, accept_of_live h]

/-- FINALIZE leaves the zero context (R259). -/
theorem finalize_ctx (s : State) : s.finalize.ctx = .ctx32 Ctx32.zero := by
  obtain ⟨passes, digest, -, e⟩ := finalize_frame s
  rw [e]

/-- Settles O42: FINALIZE answers the same state, and UPDATE one that agrees again. -/
theorem staleBytesUnobservable : Obligations.StaleBytesUnobservable := by
  unfold Obligations.StaleBytesUnobservable
  rintro s i k t hl (rfl | ⟨data, rest, rfl, hh⟩) ht
  · rw [exec_finalize_of_live hl, Host.Outcome.next.injEq] at ht
    subst ht
    refine ⟨fun c buf hc hv => ?_, fun c buf hc hv => ?_⟩
    · refine ⟨_, exec_finalize_of_live (by exact hl), ?_⟩
      rw [finalize_agrees (.inl ⟨c, buf, hc, rfl, hv⟩)]
      exact ⟨rfl, rfl, rfl, Ctx32.zero, Ctx32.zero.buf, finalize_ctx s, finalize_ctx s, fun _ _ => rfl⟩
    · refine ⟨_, exec_finalize_of_live (by exact hl), ?_⟩
      rw [finalize_agrees (.inr ⟨c, buf, hc, rfl, hv⟩)]
      exact ⟨rfl, rfl, rfl, .inl rfl⟩
  · rw [exec_update_of_live hl hh, Host.Outcome.next.injEq] at ht
    subst ht
    refine ⟨fun c buf hc hv => ?_, fun c buf hc hv => ?_⟩
    · obtain ⟨⟨htrace, hrsp, hphase⟩, hctx⟩ :=
        update_agrees32 (s := { s with host := rest }) ⟨c, buf, hc, rfl, hv⟩ k data
      exact ⟨_, exec_update_of_live (by exact hl) hh, htrace, hrsp, hphase, hctx⟩
    · obtain ⟨⟨htrace, hrsp, hphase⟩, hctx⟩ :=
        update_agrees64 (s := { s with host := rest }) ⟨c, buf, hc, rfl, hv⟩ k data
      exact ⟨_, exec_update_of_live (by exact hl) hh, htrace, hrsp, hphase, .inr hctx⟩

end Sys2Proof.Machine
end

section
/-! The context outside the live phases (R46, R47): no command reads it there. -/

namespace Sys2Proof.Machine

/-- Another context, variant and counter of free values. -/
def State.replaceContext (s : State) (c : Context) (v : Variant) (k : Nat) : State :=
  { s with ctx := c, variant := v, draws := k }

/-- `t` and `t'` show the host the same: all but the context, the variant and the counter of free values; and the
context and the variant too where a later command reads them. -/
def State.SameToHost (t t' : State) : Prop :=
  t'.trace = t.trace ∧ t'.rsp = t.rsp ∧ t'.phase = t.phase ∧ t'.faultCode = t.faultCode ∧ t'.host = t.host ∧
    t'.pending = t.pending ∧ (t.Live → t'.ctx = t.ctx ∧ t'.variant = t.variant)

/-- Where no command reads the context, replacing it shows the host nothing. -/
theorem sameToHost_replaceContext {t : State} (h : ¬ t.Live) (c : Context) (v : Variant) (k : Nat) :
    t.SameToHost (t.replaceContext c v k) :=
  ⟨rfl, rfl, rfl, rfl, rfl, rfl, fun hl => absurd hl h⟩

/-- Nor does replacing the counter of free values, in any phase. -/
theorem sameToHost_draws (t : State) (k : Nat) : t.SameToHost { t with draws := k } :=
  ⟨rfl, rfl, rfl, rfl, rfl, rfl, fun _ => ⟨rfl, rfl⟩⟩

theorem not_live_of_faulted {t : State} (h : t.phase = .faulted) : ¬ t.Live := fun hl => hl.not_faulted h

section Replaced

variable {s : State} (c : Context) (v : Variant) (k : Nat)

/-! ## The operations -/

theorem sameToHost_applyReset (s : State) : s.applyReset.SameToHost (s.replaceContext c v k).applyReset :=
  sameToHost_draws s.applyReset k

theorem sameToHost_rejectWord (s : State) (e : IllegalWord) :
    (s.rejectWord e).SameToHost ((s.replaceContext c v k).rejectWord e) := by
  have hnot := not_live_of_faulted (rejectWord_phase s e).1
  by_cases hp : s.phase = .faulted
  · rw [rejectWord_of_faulted hp] at hnot ⊢
    rw [rejectWord_of_faulted (by exact hp)]
    exact sameToHost_replaceContext hnot c v k
  · rw [rejectWord_of_not_faulted hp] at hnot ⊢
    rw [rejectWord_of_not_faulted (by exact hp)]
    exact sameToHost_replaceContext hnot c v k

/-- INIT writes the context and the variant without reading them. -/
theorem sameToHost_accept_init (s : State) (v' : Variant) (c' : Context) :
    (s.accept false fun s => s.initialize v' c').SameToHost
      ((s.replaceContext c v k).accept false fun s => s.initialize v' c') := by
  by_cases hp : s.phase = .faulted
  · rw [accept_of_faulted hp, accept_of_faulted (by exact hp)]
    exact sameToHost_replaceContext (t := s.respond .errFaulted []) (not_live_of_faulted hp) c v k
  · rw [accept_false_of_not_faulted hp, accept_false_of_not_faulted (by exact hp)]
    exact sameToHost_draws (s.initialize v' c') k

/-- UPDATE and FINALIZE do not run at all. -/
theorem sameToHost_accept_true (h : ¬ s.Live) (f : State → State) :
    (s.accept true f).SameToHost ((s.replaceContext c v k).accept true f) := by
  rcases accept_cases s true f with ⟨hp, e⟩ | ⟨-, -, hl⟩ | ⟨hp, -, e⟩ | ⟨hp, -, e⟩
  · rw [e, accept_of_faulted (by exact hp)]
    exact sameToHost_replaceContext (t := s.respond .errFaulted []) (not_live_of_faulted hp) c v k
  · simp [h] at hl
  · rw [e, accept_of_uninitialized (by exact hp)]
    exact sameToHost_replaceContext (t := s.raiseFault .errUninitialized) (not_live_of_faulted rfl) c v k
  · rw [e, accept_of_finalized (by exact hp)]
    exact sameToHost_replaceContext (t := s.raiseFault .errFinalized) (not_live_of_faulted rfl) c v k

/-! ## Commands and steps -/

theorem exec_update_of_complete {n : Nat} {data : List Byte} {rest : List HostAction}
    (h : takePayload n s.host = .complete data rest) :
    exec (.update n) s = .next ({ s with host := rest }.accept true fun s => s.update data) := by
  simp [exec, execUpdate, h]

theorem exec_update_of_short {n : Nat} (h : takePayload n s.host = .short) :
    exec (.update n) s = .next { s with pending := some n } := by
  simp [exec, execUpdate, h]

theorem exec_update_of_reset {n : Nat} {rest : List HostAction} (h : takePayload n s.host = .reset rest) :
    exec (.update n) s = .next { s with host := rest }.applyReset := by
  simp [exec, execUpdate, h]

theorem exec_update_of_interrupted {n : Nat} (h : takePayload n s.host = .interrupted) :
    exec (.update n) s = .fault .commandWhileWaiting := by
  simp [exec, execUpdate, h]

theorem exec_initOf_replaceContext {v' : Variant} {t : State} (hx : exec (initOf v') s = .next t) :
    ∃ t', exec (initOf v') (s.replaceContext c v k) = .next t' ∧ t.SameToHost t' := by
  rw [exec_initOf, Host.Outcome.next.injEq] at hx
  exact ⟨_, exec_initOf v' _, hx ▸ sameToHost_accept_init c v k s v' _⟩

/-- INIT overwrites what it would read; UPDATE takes the same payload from the host, and neither it nor FINALIZE runs. -/
theorem exec_replaceContext {i : Instr} {t : State} (h : ¬ s.Live) (hx : exec i s = .next t) :
    ∃ t', exec i (s.replaceContext c v k) = .next t' ∧ t.SameToHost t' := by
  cases i with
  | init256 => exact exec_initOf_replaceContext c v k (v' := .v256) hx
  | init512 => exact exec_initOf_replaceContext c v k (v' := .v512) hx
  | init384 => exact exec_initOf_replaceContext c v k (v' := .v384) hx
  | finalize =>
    rw [exec_finalize, Host.Outcome.next.injEq] at hx
    exact ⟨_, exec_finalize _, hx ▸ sameToHost_accept_true c v k h _⟩
  | update n =>
    cases hp : takePayload n s.host with
    | complete data rest =>
      rw [exec_update_of_complete hp, Host.Outcome.next.injEq] at hx
      exact ⟨_, exec_update_of_complete (by exact hp),
        hx ▸ sameToHost_accept_true (s := { s with host := rest }) c v k h _⟩
    | short =>
      rw [exec_update_of_short hp, Host.Outcome.next.injEq] at hx
      exact ⟨_, exec_update_of_short (by exact hp),
        hx ▸ sameToHost_replaceContext (t := { s with pending := some n }) h c v k⟩
    | reset rest =>
      rw [exec_update_of_reset hp, Host.Outcome.next.injEq] at hx
      exact ⟨_, exec_update_of_reset (by exact hp), hx ▸ sameToHost_applyReset c v k { s with host := rest }⟩
    | interrupted =>
      rw [exec_update_of_interrupted hp] at hx
      cases hx

/-- The replaced state takes the same case of a step: the host's next action and the waiting register choose it. -/
theorem step_replaceContext {t : State} (h : ¬ s.Live) (hx : step s = .next t) :
    ∃ t', step (s.replaceContext c v k) = .next t' ∧ t.SameToHost t' := by
  obtain ⟨n, hp, hx⟩ | ⟨hp, ⟨hh, rfl⟩ | ⟨cmd, rest, i, hh, hd, hx⟩ | ⟨cmd, rest, e, hh, hd, rfl⟩ | ⟨rest, hh, rfl⟩ |
    ⟨cmd, data, rest, hh, hl, rfl⟩⟩ := step_cases hx
  · rw [step_of_pending (by exact hp)]
    exact exec_replaceContext (s := { s with pending := none }) c v k h hx
  · exact ⟨_, step_of_idle hp hh, sameToHost_replaceContext h c v k⟩
  · rw [step_of_command (by exact hp) (by exact hh) hd]
    exact exec_replaceContext (s := { s with host := rest }) c v k h hx
  · exact ⟨_, step_of_illegal hp hh hd, sameToHost_rejectWord c v k { s with host := rest } e⟩
  · exact ⟨_, step_of_reset hp hh, sameToHost_applyReset c v k { s with host := rest }⟩
  · exact ⟨_, step_of_resetDuring hp hh hl, sameToHost_applyReset c v k { s with host := discardPayload _ rest }⟩

end Replaced

/-- Settles O41: the host's next action chooses the step, and outside the live phases what that step
answers does not depend on the context. -/
theorem unusedContextUnobservable : Obligations.UnusedContextUnobservable := by
  unfold Obligations.UnusedContextUnobservable
  exact fun s t c v k h hx => step_replaceContext c v k h hx

end Sys2Proof.Machine
end

section
/-! One command word is one step (R72), and the instances of a system (R73, R74): what a system's step can do, its
frame, and that the steps of different instances commute. -/

namespace Sys2Proof.Machine

/-- Settles O5: it is the command case of a step. -/
theorem stepRunsDecodedCommand : Obligations.StepRunsDecodedCommand := by
  unfold Obligations.StepRunsDecodedCommand
  exact fun _ _ _ _ hp hh hd => step_of_command hp hh hd

section Systems
variable {sys sys' : System} {k : Nat}

theorem stepAt_of_none (hk : sys.cores[k]? = none) : sys.stepAt k = .next sys := by
  simp [System.stepAt, hk]

theorem stepAt_of_step {s t : State} (hk : sys.cores[k]? = some s) (hs : step s = .next t) :
    sys.stepAt k = .next { cores := sys.cores.set k t } := by
  simp [System.stepAt, hk, hs]

/-- All that a system's step can do: there is no core `k`, or it takes its own step and the result is put in its
place. -/
theorem stepAt_cases (h : sys.stepAt k = .next sys') :
    (sys.cores[k]? = none ∧ sys' = sys) ∨
    ∃ s t, sys.cores[k]? = some s ∧ step s = .next t ∧ sys' = { cores := sys.cores.set k t } := by
  cases hk : sys.cores[k]? with
  | none =>
    rw [stepAt_of_none hk, Host.Outcome.next.injEq] at h
    exact .inl ⟨rfl, h.symm⟩
  | some s =>
    cases hs : step s with
    | next t =>
      rw [stepAt_of_step hk hs, Host.Outcome.next.injEq] at h
      exact .inr ⟨s, t, rfl, hs, h.symm⟩
    | fault r => simp [System.stepAt, hk, hs] at h
    | refused r => simp [System.stepAt, hk, hs] at h

theorem stepAt_length (h : sys.stepAt k = .next sys') : sys'.cores.length = sys.cores.length := by
  obtain ⟨-, rfl⟩ | ⟨s, t, -, -, rfl⟩ := stepAt_cases h
  · rfl
  · exact List.length_set

/-- R74: the frame of a system's step. -/
theorem stepAt_getElem?_ne {j : Nat} (h : sys.stepAt k = .next sys') (hj : j ≠ k) :
    sys'.cores[j]? = sys.cores[j]? := by
  obtain ⟨-, rfl⟩ | ⟨s, t, -, -, rfl⟩ := stepAt_cases h
  · rfl
  · exact List.getElem?_set_ne hj.symm

theorem stepAt_getElem?_self {s : State} (h : sys.stepAt k = .next sys') (hk : sys.cores[k]? = some s) :
    ∃ t, step s = .next t ∧ sys'.cores[k]? = some t := by
  obtain ⟨hnone, -⟩ | ⟨s', t, hsome, hs, rfl⟩ := stepAt_cases h
  · simp [hnone] at hk
  · obtain rfl : s' = s := Option.some.inj (hsome.symm.trans hk)
    obtain ⟨hlt, -⟩ := List.getElem?_eq_some_iff.mp hk
    exact ⟨t, hs, List.getElem?_set_self hlt⟩

end Systems

/-- Settles O43: the frame of a system's step, and the one core that moves. -/
theorem instancesAreIndependent : Obligations.InstancesAreIndependent := by
  unfold Obligations.InstancesAreIndependent
  exact fun sys sys' k h =>
    ⟨stepAt_length h, fun _ hj => stepAt_getElem?_ne h hj, fun _ hk => stepAt_getElem?_self h hk⟩

/-- Settles O44: by the frame, each core finds after the other's step the state it would have stepped from, so it
takes the same step; and writes to two places of a list commute. -/
theorem stepsOfInstancesCommute : Obligations.StepsOfInstancesCommute := by
  unfold Obligations.StepsOfInstancesCommute
  intro sys a b j k hjk hj hk
  have hak : a.cores[k]? = sys.cores[k]? := stepAt_getElem?_ne hj hjk.symm
  have hbj : b.cores[j]? = sys.cores[j]? := stepAt_getElem?_ne hk hjk
  obtain ⟨hk0, rfl⟩ | ⟨s, t, hks, hs, rfl⟩ := stepAt_cases hk
  · exact ⟨a, stepAt_of_none (hak.trans hk0), hj⟩
  · obtain ⟨hj0, rfl⟩ | ⟨s', t', hjs, hs', rfl⟩ := stepAt_cases hj
    · exact ⟨_, hk, stepAt_of_none (hbj.trans hj0)⟩
    · refine ⟨_, stepAt_of_step (hak.trans hks) hs, ?_⟩
      rw [stepAt_of_step (hbj.trans hjs) hs', List.set_comm _ _ hjk.symm]

end Sys2Proof.Machine
end

section
/-! The command map (R96) by value: each meaning has its own range of words, and the two round trips with the encoder
are read off that. -/

namespace Sys2Proof

/-- The words, by value, to which R96 gives the meaning `d`. -/
def Decoded.IsMeaningOf : Decoded → Nat → Prop
  | .command .init256, v => v = 0x01000000
  | .command .init512, v => v = 0x01000001
  | .command .init384, v => v = 0x01000002
  | .command (.update n), v => v = 0x02000000 + n ∧ n < 2 ^ 24
  | .command .finalize, v => v = 0x03000000
  | .illegal .illegalVariant, v => 0x01000003 ≤ v ∧ v ≤ 0x010000FF
  | .illegal .illegalCommand, v => v < 0x01000000 ∨ (0x01000100 ≤ v ∧ v < 0x02000000) ∨ 0x03000001 ≤ v

/-- What the decoder answers stands in its range: one range, or part of one, for each branch of the decoder. -/
theorem decode_isMeaningOf (cmd : Word32) : (decode cmd).IsMeaningOf cmd.toNat := by
  rw [decode_eq]
  split_ifs <;> simp only [Decoded.IsMeaningOf] <;> omega

/-- The decoder answers `d` on the whole range of `d`: the fields of the word choose the branch. -/
theorem decode_of_isMeaningOf {cmd : Word32} {d : Decoded} (h : d.IsMeaningOf cmd.toNat) : decode cmd = d := by
  rw [decode_eq]
  cases d with
  | command i =>
    cases i with
    | init256 => rw [show cmd.toNat = 0x01000000 from h]; rfl
    | init512 => rw [show cmd.toNat = 0x01000001 from h]; rfl
    | init384 => rw [show cmd.toNat = 0x01000002 from h]; rfl
    | finalize => rw [show cmd.toNat = 0x03000000 from h]; rfl
    | update n =>
      obtain ⟨hv, hn⟩ := h
      rw [if_neg (by omega), if_pos (by omega), show cmd.toNat % 2 ^ 24 = n by omega]
  | illegal e =>
    cases e with
    | illegalVariant =>
      obtain ⟨hlo, hhi⟩ := h
      rw [if_pos (by omega), if_neg (by omega), if_neg (by omega), if_neg (by omega), if_neg (by omega)]
    | illegalCommand =>
      rcases h with hlow | ⟨hlo, hhi⟩ | hhigh
      · rw [if_neg (by omega), if_neg (by omega), if_neg (by omega)]
      · rw [if_pos (by omega), if_pos (by omega)]
      · by_cases hfin : cmd.toNat / 2 ^ 24 = 3
        · rw [if_neg (by omega), if_neg (by omega), if_pos hfin, if_pos (by omega)]
        · rw [if_neg (by omega), if_neg (by omega), if_neg hfin]

theorem decode_eq_iff {cmd : Word32} {d : Decoded} : decode cmd = d ↔ d.IsMeaningOf cmd.toNat :=
  ⟨fun h => h ▸ decode_isMeaningOf cmd, decode_of_isMeaningOf⟩

/-- Settles O2: R96's ranges are those of `Decoded.IsMeaningOf`. -/
theorem commandMapIsExact : Obligations.CommandMapIsExact := by
  unfold Obligations.CommandMapIsExact
  exact fun _ => ⟨decode_eq_iff, decode_eq_iff, decode_eq_iff, fun _ => decode_eq_iff, decode_eq_iff, decode_eq_iff,
    decode_eq_iff⟩

/-! ## The encoder -/

/-- The encoding of a well-formed command is a word of that command. -/
theorem encode_isMeaningOf {i : Instr} (h : i.wellFormed = true) :
    (Decoded.command i).IsMeaningOf (encode i).toNat := by
  cases i with
  | update n =>
    rw [wellFormed_update] at h
    exact ⟨encode_update_toNat h, h⟩
  | init256 => rfl
  | init512 => rfl
  | init384 => rfl
  | finalize => rfl

theorem decode_encode {i : Instr} (h : i.wellFormed = true) : decode (encode i) = .command i :=
  decode_of_isMeaningOf (encode_isMeaningOf h)

/-- R97: a command has one word. -/
theorem Decoded.IsMeaningOf.command_unique {i : Instr} {v v' : Nat} (h : (Decoded.command i).IsMeaningOf v)
    (h' : (Decoded.command i).IsMeaningOf v') : v = v' := by
  cases i with
  | update n => exact h.1.trans h'.1.symm
  | init256 => exact Eq.trans h (Eq.symm h')
  | init512 => exact Eq.trans h (Eq.symm h')
  | init384 => exact Eq.trans h (Eq.symm h')
  | finalize => exact Eq.trans h (Eq.symm h')

/-- Settles O3: the encoding stands in the command's range. -/
theorem decodeOfEncode : Obligations.DecodeOfEncode := by
  unfold Obligations.DecodeOfEncode
  exact fun _ => decode_encode

/-- Settles O4: the word and the encoding of what it decodes to are both words of one command. -/
theorem encodeOfDecode : Obligations.EncodeOfDecode := by
  unfold Obligations.EncodeOfDecode
  intro cmd i h
  have hwf : i.wellFormed = true := Machine.decode_wellFormed h
  exact ⟨hwf, BitVec.eq_of_toNat_eq ((encode_isMeaningOf hwf).command_unique (decode_eq_iff.mp h))⟩

/-- Settles O1: each word's value stands in the range of its meaning. -/
theorem writtenWordsDecode : Obligations.WrittenWordsDecode := by
  unfold Obligations.WrittenWordsDecode
  simp [decode_eq_iff, Decoded.IsMeaningOf]

end Sys2Proof
end

section
/-! The answer of a command (R99): passes, and then one response. -/

namespace Sys2Proof.Machine

/-- From `s` to `t` the trace gains passes only and then one response, RSP gains that response, and its data is empty
unless `i` is a FINALIZE that answers OK. -/
def State.AnswersOnce (i : Instr) (s t : State) : Prop :=
  ∃ (passes : List Event) (status : Status) (data : List Byte),
    t.trace = s.trace ++ passes ++ [.response status data] ∧ (∀ e ∈ passes, e.isPass = true) ∧
      t.rsp = s.rsp ++ status.code :: data ∧ (data ≠ [] → i = .finalize ∧ status = .ok)

theorem answersOnce_respond (i : Instr) (s : State) (status : Status) : s.AnswersOnce i (s.respond status []) :=
  ⟨[], status, [], by simp, by simp, rfl, fun h => absurd rfl h⟩

theorem answersOnce_raiseFault (i : Instr) (s : State) (code : Status) : s.AnswersOnce i (s.raiseFault code) :=
  answersOnce_respond i { s with phase := .faulted, faultCode := code.code } code

theorem answersOnce_initialize (i : Instr) (s : State) (v : Variant) (c : Context) :
    s.AnswersOnce i (s.initialize v c) :=
  answersOnce_respond i { s with variant := v, ctx := c, phase := .initialized } .ok

theorem answersOnce_update (i : Instr) (s : State) (data : List Byte) : s.AnswersOnce i (s.update data) := by
  obtain ⟨passes, status, htrace, hpass, hrsp⟩ := update_response s data
  exact ⟨passes, status, [], htrace, hpass, hrsp, fun h => absurd rfl h⟩

theorem answersOnce_finalize (s : State) : s.AnswersOnce .finalize s.finalize := by
  obtain ⟨passes, digest, hpass, e⟩ := finalize_frame s
  rw [e]
  exact ⟨passes, .ok, digest, rfl, hpass, rfl, fun _ => ⟨rfl, rfl⟩⟩

/-- Each acceptance check that fails answers once too, and nothing runs after it. -/
theorem answersOnce_accept {i : Instr} {s : State} (b : Bool) {f : State → State} (h : s.AnswersOnce i (f s)) :
    s.AnswersOnce i (s.accept b f) := by
  rcases accept_cases s b f with ⟨-, e⟩ | ⟨-, e, -⟩ | ⟨-, -, e⟩ | ⟨-, -, e⟩
  · rw [e]; exact answersOnce_respond i s _
  · rw [e]; exact h
  · rw [e]; exact answersOnce_raiseFault i s _
  · rw [e]; exact answersOnce_raiseFault i s _

theorem exec_initOf_answersOnce (v : Variant) (s : State) :
    ∃ t, exec (initOf v) s = .next t ∧ s.AnswersOnce (initOf v) t :=
  ⟨_, exec_initOf v s, answersOnce_accept false (answersOnce_initialize _ s v _)⟩

/-- A command whose operands are all there is answered once. -/
theorem exec_answersOnce {s : State} {i : Instr}
    (h : ∀ n, i = .update n → ∃ data rest, data.length = n ∧ s.host = payloads data ++ rest) :
    ∃ t, exec i s = .next t ∧ s.AnswersOnce i t := by
  cases i with
  | init256 => exact exec_initOf_answersOnce .v256 s
  | init512 => exact exec_initOf_answersOnce .v512 s
  | init384 => exact exec_initOf_answersOnce .v384 s
  | finalize => exact ⟨_, exec_finalize s, answersOnce_accept true (answersOnce_finalize s)⟩
  | update n =>
    obtain ⟨data, rest, rfl, hh⟩ := h n rfl
    exact ⟨_, execUpdate_of_payloads hh,
      answersOnce_accept (s := { s with host := rest }) true (answersOnce_update _ { s with host := rest } data)⟩

/-- Settles O37, by the kinds of commands. -/
theorem oneResponsePerCommand : Obligations.OneResponsePerCommand := by
  unfold Obligations.OneResponsePerCommand
  intro s i h
  obtain ⟨t, hx, passes, status, data, hanswer⟩ := exec_answersOnce h
  exact ⟨t, passes, status, data, hx, hanswer⟩

end Sys2Proof.Machine
end

section
/-! The pseudo-commands (R102, R338): cutting a message loses nothing, and HASH is INIT, UPDATE* and FINALIZE. -/

namespace Sys2Proof.Machine

/-- Each chunk is followed by the chunks of what is left; a chunk takes a byte or more, so one chunk a byte is enough. -/
theorem flatten_cutChunks {size fuel : Nat} {msg : List Byte} (hsize : 0 < size) (hfuel : msg.length ≤ fuel) :
    (cutChunks size fuel msg).flatten = msg := by
  induction fuel generalizing msg with
  | zero => exact (List.length_eq_zero_iff.mp (Nat.le_zero.mp hfuel)).symm
  | succ fuel ih =>
    cases msg with
    | nil => rfl
    | cons x msg =>
      have hleft : ((x :: msg).drop size).length ≤ fuel := by
        rw [List.length_drop]
        omega
      rw [cutChunks, List.flatten_cons, ih hleft, List.take_append_drop]

theorem mem_cutChunks {size fuel : Nat} {msg d : List Byte} (hsize : 0 < size) (h : d ∈ cutChunks size fuel msg) :
    d ≠ [] ∧ d.length ≤ size := by
  induction fuel generalizing msg with
  | zero => simp [cutChunks] at h
  | succ fuel ih =>
    cases msg with
    | nil => simp [cutChunks] at h
    | cons x msg =>
      rw [cutChunks, List.mem_cons] at h
      rcases h with rfl | h
      · exact ⟨by simp [hsize.ne'], List.length_take_le _ _⟩
      · exact ih h

theorem flatten_messageChunks (msg : List Byte) : (messageChunks msg).flatten = msg :=
  flatten_cutChunks (by decide) le_rfl

theorem hash_eq (v : Variant) (msg : List Byte) :
    hash v msg = .command (encode (initOf v)) :: (updateStar msg ++ [.command 0x03000000]) := rfl

theorem initOf_wellFormed (v : Variant) : (initOf v).wellFormed = true := by
  cases v <;> rfl

/-- Settles O59: the chunks are those of `cutChunks`, and HASH's first word is the encoding of its INIT. -/
theorem pseudoCommandsCarryMessage : Obligations.PseudoCommandsCarryMessage := by
  unfold Obligations.PseudoCommandsCarryMessage
  refine ⟨fun msg => ⟨flatten_messageChunks msg, fun d hd => mem_cutChunks (by decide) hd, rfl⟩, rfl, fun v msg => ?_⟩
  exact ⟨encode (initOf v), decode_encode (initOf_wellFormed v), hash_eq v msg⟩

end Sys2Proof.Machine
end

section
/-! The word functions bit by bit (R120 to R132): rotations, the sigma functions as an exclusive or of three terms,
Ch and Maj. -/

namespace Sys2Proof.Machine

section Bits
variable {w : Nat}

/-- R120: the bits below `w - n` come from above by the distance, and the others wrap around. -/
theorem getLsbD_rotr (x : BitVec w) {n : Nat} (h : 0 < n ∧ n < w) {i : Nat} (hi : i < w) :
    (rotr x n h).getLsbD i = x.getLsbD ((i + n) % w) := by
  rcases Nat.lt_or_ge (i + n) w with hlt | hge
  · rw [getLsbD_rotr_of_lt x h hlt, Nat.mod_eq_of_lt hlt]
  · have hwrap : (i + n) % w = i + n - w := by rw [Nat.mod_eq_sub_mod hge, Nat.mod_eq_of_lt (by omega)]
    rw [getLsbD_rotr_of_ge x h hi hge, hwrap]

/-- R122: a shift leaves 0 in the places it vacates, which are those from `k = w - n` on. -/
theorem getLsbD_ushiftRight_of_add_eq (x : BitVec w) {n k : Nat} (hk : k + n = w) (i : Nat) :
    (x >>> n).getLsbD i = (decide (i < k) && x.getLsbD (i + n)) := by
  rw [BitVec.getLsbD_ushiftRight, Nat.add_comm n i]
  by_cases hi : i < k
  · simp [hi]
  · simp [hi, BitVec.getLsbD_of_ge x (i + n) (by omega)]

/-- A Σ function: three rotations. -/
theorem getLsbD_rotr_xor_rotr_xor_rotr (x : BitVec w) {l m n : Nat} (hl : 0 < l ∧ l < w) (hm : 0 < m ∧ m < w)
    (hn : 0 < n ∧ n < w) {i : Nat} (hi : i < w) : (rotr x l hl ^^^ rotr x m hm ^^^ rotr x n hn).getLsbD i =
      ((x.getLsbD ((i + l) % w) ^^ x.getLsbD ((i + m) % w)) ^^ x.getLsbD ((i + n) % w)) := by
  rw [BitVec.getLsbD_xor, BitVec.getLsbD_xor, getLsbD_rotr x hl hi, getLsbD_rotr x hm hi, getLsbD_rotr x hn hi]

/-- A σ function: two rotations and a shift. -/
theorem getLsbD_rotr_xor_rotr_xor_ushiftRight (x : BitVec w) {l m n k : Nat} (hl : 0 < l ∧ l < w)
    (hm : 0 < m ∧ m < w) (hk : k + n = w) {i : Nat} (hi : i < w) : (rotr x l hl ^^^ rotr x m hm ^^^ (x >>> n)).getLsbD i =
      ((x.getLsbD ((i + l) % w) ^^ x.getLsbD ((i + m) % w)) ^^ (decide (i < k) && x.getLsbD (i + n))) := by
  rw [BitVec.getLsbD_xor, BitVec.getLsbD_xor, getLsbD_rotr x hl hi, getLsbD_rotr x hm hi,
    getLsbD_ushiftRight_of_add_eq x hk]

/-- R131: at each place one of the two terms of Ch is 0. -/
theorem getLsbD_choice (e f g : BitVec w) {i : Nat} (hi : i < w) :
    (choice e f g).getLsbD i = if e.getLsbD i = true then f.getLsbD i else g.getLsbD i := by
  rw [choice, BitVec.getLsbD_xor, BitVec.getLsbD_and, BitVec.getLsbD_and, BitVec.getLsbD_not]
  cases e.getLsbD i <;> simp [hi]

/-- R132 on three bits: of the three pairs, one or three are both 1 exactly when two bits or more are. -/
theorem xor_pairs_eq_majority : ∀ a b c : Bool,
    (((a && b) ^^ (a && c)) ^^ (b && c)) = decide (2 ≤ a.toNat + b.toNat + c.toNat) := by
  decide

theorem getLsbD_majority (a b c : BitVec w) (i : Nat) : (majority a b c).getLsbD i =
    decide (2 ≤ (a.getLsbD i).toNat + (b.getLsbD i).toNat + (c.getLsbD i).toNat) := by
  rw [← xor_pairs_eq_majority, majority, BitVec.getLsbD_xor, BitVec.getLsbD_xor, BitVec.getLsbD_and,
    BitVec.getLsbD_and, BitVec.getLsbD_and]

end Bits

/-- Settles O46: the formula is the definition's, and each bit wraps around or does not. -/
theorem rotateMovesBits : Obligations.RotateMovesBits := by
  unfold Obligations.RotateMovesBits
  exact fun _ x _ h => ⟨rfl, fun _ hi => getLsbD_rotr x h hi⟩

/-- Settles O47: each function is one of the two three-term forms, at its own distances. -/
theorem sigmaBits32 : Obligations.SigmaBits32 := by
  unfold Obligations.SigmaBits32
  exact fun x _ hi => ⟨getLsbD_rotr_xor_rotr_xor_ushiftRight x _ _ rfl hi,
    getLsbD_rotr_xor_rotr_xor_ushiftRight x _ _ rfl hi,
    getLsbD_rotr_xor_rotr_xor_rotr x _ _ _ hi, getLsbD_rotr_xor_rotr_xor_rotr x _ _ _ hi⟩

/-- Settles O48: each function is one of the two three-term forms, at its own distances. -/
theorem sigmaBits64 : Obligations.SigmaBits64 := by
  unfold Obligations.SigmaBits64
  exact fun x _ hi => ⟨getLsbD_rotr_xor_rotr_xor_ushiftRight x _ _ rfl hi,
    getLsbD_rotr_xor_rotr_xor_ushiftRight x _ _ rfl hi,
    getLsbD_rotr_xor_rotr_xor_rotr x _ _ _ hi, getLsbD_rotr_xor_rotr_xor_rotr x _ _ _ hi⟩

/-- Settles O49, by the three bits at each place. -/
theorem choiceAndMajorityBits : Obligations.ChoiceAndMajorityBits := by
  unfold Obligations.ChoiceAndMajorityBits
  exact fun _ a b c i hi => ⟨getLsbD_choice a b c hi, getLsbD_majority a b c i⟩

end Sys2Proof.Machine
end

section
/-! The two compression cores: the words of a schedule (R150, R151, R180, R181) and a pass as its rounds and the
feed-forward (R153 to R155, R183 to R185), for both widths; and COMPRESS32's two statements. -/

namespace Sys2Proof.Machine

section Cores
variable {w bs : Nat}

/-- The words of a schedule read latest first. -/
theorem getD_reverse_schedule (f : SigmaFunctions w) (block : Vector Byte bs) {t i : Nat} (ht : 16 ≤ t) (hi : i < t) :
    (schedule f t block).reverse.getD i 0 = (schedule f t block).getD (t - 1 - i) 0 := by
  rw [List.getD_eq_getElem?_getD, List.getElem?_reverse (by rwa [length_schedule f ht]), length_schedule f ht,
    ← List.getD_eq_getElem?_getD]

/-- R151, R181: every word from the 16th on, in a schedule of any length. -/
theorem schedule_recurrence (f : SigmaFunctions w) (block : Vector Byte bs) {m t : Nat} (ht : 16 ≤ t) (hm : t < m) :
    (schedule f m block).getD t 0 =
      (schedule f m block).getD (t - 16) 0 + f.smallSigma0 ((schedule f m block).getD (t - 15) 0) +
        (schedule f m block).getD (t - 7) 0 + f.smallSigma1 ((schedule f m block).getD (t - 2) 0) := by
  have hlast : (schedule f m block).getD t 0 = nextScheduleWord f (schedule f t block).reverse := by
    rw [schedule_prefix f block (n := t + 1) (by omega) hm (Nat.lt_succ_self t), schedule_succ f ht,
      List.getD_append_right _ _ _ _ (length_schedule f ht block).le, length_schedule f ht, Nat.sub_self]
    rfl
  have hback {i : Nat} (hi : i < t) :
      (schedule f t block).reverse.getD i 0 = (schedule f m block).getD (t - 1 - i) 0 := by
    rw [getD_reverse_schedule f block ht hi, schedule_prefix f block ht hm.le (by omega)]
  rw [hlast, nextScheduleWord, hback (i := 15) (by omega), hback (i := 14) (by omega), hback (i := 6) (by omega),
    hback (i := 1) (by omega)]
  rfl

/-- R150, R180: the value of one of the first 16 words, as R12's sum over the block's bytes. -/
theorem toNat_schedule_block (f : SigmaFunctions w) (block : Vector Byte bs) (hw : 8 * (w / 8) = w)
    (hbs : 16 * (w / 8) ≤ bs) {m t : Nat} (hm : 16 ≤ m) (ht : t < 16) :
    ((schedule f m block).getD t 0).toNat = ((List.range (w / 8)).map fun i =>
      (block.toList.getD (w / 8 * t + i) 0).toNat * 2 ^ (8 * (w / 8 - 1) - 8 * i)).sum := by
  have hlen : ((block.toList.drop (w / 8 * t)).take (w / 8)).length = w / 8 := by
    have hend : w / 8 * (t + 1) ≤ w / 8 * 16 := Nat.mul_le_mul_left _ ht
    rw [Nat.mul_add_one] at hend
    rw [List.length_take, List.length_drop, Vector.length_toList]
    omega
  rw [schedule_block f block hm ht, toNat_wordOfBE (by rw [hlen, hw]), beNat_eq_sum, hlen]
  congr 1
  refine List.map_congr_left fun i hi => ?_
  rw [List.getD_eq_getElem?_getD, List.getElem?_take_of_lt (List.mem_range.mp hi), List.getElem?_drop,
    ← List.getD_eq_getElem?_getD]

/-- The feed-forward, word by word (R155, R185), after the last round. -/
theorem compress_eq_add_workingAt (f : SigmaFunctions w) {k : List (BitVec w)} (hin : Vector (BitVec w) 8)
    (block : Vector Byte bs) {v : Working w} (hk : 16 ≤ k.length)
    (hv : workingAt f k (schedule f k.length block) hin k.length = v) :
    compress f k hin block = #v[hin[0] + v.a, hin[1] + v.b, hin[2] + v.c, hin[3] + v.d, hin[4] + v.e, hin[5] + v.f,
      hin[6] + v.g, hin[7] + v.h] := by
  rw [compress, ← workingAt_all f k hin block hk, hv, Working.toVector]
  ext i hi
  interval_cases i <;> rw [Vector.getElem_zipWith] <;> rfl

end Cores

/-- Settles O50: the length, the block's words as R12's sum of four bytes, and the recurrence. -/
theorem schedule32 : Obligations.Schedule32 := by
  unfold Obligations.Schedule32
  refine fun block => ⟨length_schedule _ (by decide) block, fun t => ?_, fun t => schedule_recurrence _ block⟩
  rw [toNat_schedule_block sigmaW32 block rfl (by decide) (by decide) t.isLt]
  simp (disch := omega) [List.range_succ, Nat.add_assoc, getElem?_pos]

/-- Settles O52: the working variables are `workingAt`, which starts with the load and takes one round at a time. -/
theorem compress32Rounds : Obligations.Compress32Rounds := by
  unfold Obligations.Compress32Rounds
  refine fun hin block => ⟨workingAt sigmaW32 romK256 (schedule sigmaW32 64 block) hin, workingAt_zero .., ?_, ?_⟩
  · intro t ht
    have hwords : t < (schedule sigmaW32 64 block).length := by rwa [length_schedule _ (by decide)]
    exact ⟨_, _, rfl, rfl, workingAt_succ sigmaW32 hin ht hwords⟩
  · exact compress_eq_add_workingAt sigmaW32 hin block (by decide) rfl

end Sys2Proof.Machine
end

section
/-! The 64-bit core (R180 to R188): its schedule and its rounds, as the shared laws of the two cores give them, its
constant table, and an UPDATE's indifference to the variant. -/

namespace Sys2Proof.Machine

/-- Settles O51: the length, the block's words as R12's sum of eight bytes, and the recurrence. -/
theorem schedule64 : Obligations.Schedule64 := by
  unfold Obligations.Schedule64
  exact fun block => ⟨length_schedule _ (by decide) block,
    fun t => toNat_schedule_block sigmaW64 block rfl (by decide) (by decide) t.isLt,
    fun t => schedule_recurrence sigmaW64 block⟩

/-- Settles O53: the working variables are `workingAt`, which starts with the load and takes one round at a time. -/
theorem compress64Rounds : Obligations.Compress64Rounds := by
  unfold Obligations.Compress64Rounds
  refine fun hin block => ⟨workingAt sigmaW64 romK512 (schedule sigmaW64 80 block) hin, workingAt_zero .., ?_, ?_⟩
  · intro t ht
    have hwords : t < (schedule sigmaW64 80 block).length := by rwa [length_schedule _ (by decide)]
    exact ⟨_, _, rfl, rfl, workingAt_succ sigmaW64 hin ht hwords⟩
  · exact compress_eq_add_workingAt sigmaW64 hin block (by decide) rfl

/-- Settles O54: a fact about the entries the spec prints, compared one by one. -/
theorem roundConstantTablesAgree : Obligations.RoundConstantTablesAgree := by
  unfold Obligations.RoundConstantTablesAgree
  exact ⟨rfl, rfl, by decide⟩

/-- R188: UPDATE neither reads the variant nor writes it; the shape of the context selects the core. -/
theorem update_withVariant (s : State) (v : Variant) (data : List Byte) :
    State.update { s with variant := v } data = { s.update data with variant := v } := by
  by_cases hr : s.HasRoom data.length
  · cases hc : s.ctx with
    | ctx32 c => rw [← hc, update_of_ctx32 (s := { s with variant := v }) hc hr, update_of_ctx32 hc hr]; rfl
    | ctx64 c => rw [← hc, update_of_ctx64 (s := { s with variant := v }) hc hr, update_of_ctx64 hc hr]; rfl
  · rw [update_of_no_room hr, update_of_no_room (s := { s with variant := v }) hr]; rfl

/-- R188 for the command: the acceptance checks read the phase only. -/
theorem exec_update_withVariant {s : State} {data : List Byte} {rest : List HostAction} (hl : s.Live)
    (h : s.host = payloads data ++ rest) (v : Variant) :
    exec (.update data.length) { s with variant := v } =
      .next { State.update { s with host := rest } data with variant := v } := by
  rw [exec_update_of_live (s := { s with variant := v }) hl h]
  exact congrArg _ (update_withVariant { s with host := rest } v data)

/-- Settles O23: both next states are that of `s` itself, with the variant put in. -/
theorem updateIgnoresTruncatedVariant : Obligations.UpdateIgnoresTruncatedVariant := by
  unfold Obligations.UpdateIgnoresTruncatedVariant
  exact fun s c data rest _ hl _ hh _ => ⟨State.update { s with host := rest } data,
    exec_update_withVariant hl hh .v512, exec_update_withVariant hl hh .v384⟩

end Sys2Proof.Machine
end

section
/-! INIT (R213 to R215): one law for the three variants, from which each word's statement is read off. -/

namespace Sys2Proof.Machine

/-- R93: an opcode 0x01 word whose reserved field is not zero is no INIT, whatever its variant field. -/
theorem decode_init_of_reserved (cmd : Word32) (hop : cmd.toNat / 2 ^ 24 = 1)
    (hres : cmd.toNat / 2 ^ 8 % 2 ^ 16 ≠ 0) : decode cmd = .illegal .illegalCommand := by
  rw [decode_eq, if_pos hop, if_pos hres]

/-- INIT needs no context: it runs in every phase but Faulted. -/
theorem exec_initOf_of_not_faulted (v : Variant) {s : State} (h : s.phase ≠ .faulted) :
    exec (initOf v) s = .next (s.initialize v (initialContext v)) := by
  rw [exec_initOf, accept_false_of_not_faulted h]

theorem exec_initOf_of_faulted (v : Variant) {s : State} (h : s.phase = .faulted) :
    exec (initOf v) s = .next (s.respond .errFaulted []) := by
  rw [exec_initOf, accept_of_faulted h]

/-- Settles O14: the law of INIT at V256, whose initial context is the one written out. -/
theorem init256StartsContext : Obligations.Init256StartsContext := by
  unfold Obligations.Init256StartsContext
  exact ⟨decode_encode (i := .init256) rfl, decode_init_of_reserved,
    fun _ => ⟨exec_initOf_of_not_faulted .v256, exec_initOf_of_faulted .v256⟩⟩

/-- Settles O15: the law of INIT at V512. -/
theorem init512StartsContext : Obligations.Init512StartsContext := by
  unfold Obligations.Init512StartsContext
  exact ⟨decode_encode (i := .init512) rfl, decode_init_of_reserved,
    fun _ => ⟨exec_initOf_of_not_faulted .v512, exec_initOf_of_faulted .v512⟩⟩

/-- Settles O16: the law of INIT at V384. -/
theorem init384StartsContext : Obligations.Init384StartsContext := by
  unfold Obligations.Init384StartsContext
  exact ⟨decode_encode (i := .init384) rfl, decode_init_of_reserved,
    fun _ => ⟨exec_initOf_of_not_faulted .v384, exec_initOf_of_faulted .v384⟩⟩

end Sys2Proof.Machine
end

section
/-! UPDATE with its whole payload and room for it (R216 to R222, R224, R225): the next state on each shape, written
through UPDATE's loop. What one byte, a short payload, an empty one and any other do is what the loop does. -/

namespace Sys2Proof.Machine

section Complete

variable {s : State} {data : List Byte} {rest : List HostAction}

/-- A live UPDATE on a Ctx32. -/
theorem exec_update_of_ctx32 {c : Ctx32} (hc : s.ctx = .ctx32 c) (hl : s.Live) (hh : s.host = payloads data ++ rest)
    (hr : s.HasRoom data.length) :
    exec (.update data.length) s = .next { s with
      host := rest
      phase := .accumulating
      ctx := .ctx32
        { (absorbAll compress32 c.toStream s.draws data).stream with bitLength := countBits32 c data.length }
      trace := s.trace ++ (absorbAll compress32 c.toStream s.draws data).passes.map Event.compress32 ++
        [.response .ok []]
      rsp := s.rsp ++ [0x00]
      draws := (absorbAll compress32 c.toStream s.draws data).draws } := by
  rw [exec_update_of_live hl hh, update_of_ctx32 (by exact hc) (by exact hr)]
  rfl

/-- A live UPDATE on a Ctx64. -/
theorem exec_update_of_ctx64 {c : Ctx64} (hc : s.ctx = .ctx64 c) (hl : s.Live) (hh : s.host = payloads data ++ rest)
    (hr : s.HasRoom data.length) :
    exec (.update data.length) s = .next { s with
      host := rest
      phase := .accumulating
      ctx := .ctx64
        { (absorbAll compress64 c.toStream s.draws data).stream with
          bitLengthHi := countBitsHi c.bitLengthHi c.bitLengthLo data.length
          bitLengthLo := countBitsLo c.bitLengthLo data.length }
      trace := s.trace ++ (absorbAll compress64 c.toStream s.draws data).passes.map Event.compress64 ++
        [.response .ok []]
      rsp := s.rsp ++ [0x00]
      draws := (absorbAll compress64 c.toStream s.draws data).draws } := by
  rw [exec_update_of_live hl hh, update_of_ctx64 (by exact hc) (by exact hr)]
  rfl

end Complete

/-- R221 over the fields of a Ctx32. -/
theorem hasRoom_ctx32 {s : State} {c : Ctx32} (hc : s.ctx = .ctx32 c) (n : Nat) :
    s.HasRoom n ↔ c.bitLength.toNat + 8 * n < 2 ^ 64 := by
  rw [State.HasRoom, hc]
  rfl

/-- R221 over the fields of a Ctx64. -/
theorem hasRoom_ctx64 {s : State} {c : Ctx64} (hc : s.ctx = .ctx64 c) (n : Nat) :
    s.HasRoom n ↔ c.bitLengthHi.toNat * 2 ^ 64 + c.bitLengthLo.toNat + 8 * n < 2 ^ 128 := by
  rw [State.HasRoom, hc]
  rfl

/-! ## Any payload -/

/-- Settles O18: each shape's counter law, and the fields of the next state. -/
theorem updateCompletesAndCounts : Obligations.UpdateCompletesAndCounts := by
  unfold Obligations.UpdateCompletesAndCounts
  intro s data rest hl hn hh hr
  cases hc : s.ctx with
  | ctx32 c =>
    refine ⟨_, _, exec_update_of_ctx32 hc hl hh hr, rfl, rfl, rfl, rfl, rfl, rfl, rfl, ?_, nofun⟩
    rintro _ ⟨⟩
    exact ⟨List.forall_mem_map.mpr fun p _ => ⟨p, rfl⟩, _, rfl, countBits32_toNat ((hasRoom_ctx32 hc _).mp hr)⟩
  | ctx64 c =>
    refine ⟨_, _, exec_update_of_ctx64 hc hl hh hr, rfl, rfl, rfl, rfl, rfl, rfl, rfl, nofun, ?_⟩
    rintro _ ⟨⟩
    exact ⟨List.forall_mem_map.mpr fun p _ => ⟨p, rfl⟩, _, rfl, countBitsLo_toNat _ _,
      countBitsHi_toNat ((hasRoom_ctx64 hc _).mp hr)⟩

/-- Settles O20: the passes and the position of the loop (R224). -/
theorem updatePassCount : Obligations.UpdatePassCount := by
  unfold Obligations.UpdatePassCount
  intro s data rest hl hn hh hr
  cases hc : s.ctx with
  | ctx32 c =>
    refine ⟨_, _, exec_update_of_ctx32 hc hl hh hr, rfl, ?_, nofun⟩
    rintro _ ⟨⟩
    obtain ⟨hcount, hlen⟩ := absorbAll_count (compress := compress32) data c.toStream s.draws
    exact ⟨(passCount_map_compress32 _).trans hcount, _, rfl, hlen⟩
  | ctx64 c =>
    refine ⟨_, _, exec_update_of_ctx64 hc hl hh hr, rfl, nofun, ?_⟩
    rintro _ ⟨⟩
    obtain ⟨hcount, hlen⟩ := absorbAll_count (compress := compress64) data c.toStream s.draws
    exact ⟨(passCount_map_compress64 _).trans hcount, _, rfl, hlen⟩

/-! ## A payload that does not fill the block -/

/-- Settles O19: the loop makes no pass and only writes behind the valid bytes. -/
theorem updateWithinBlock : Obligations.UpdateWithinBlock := by
  unfold Obligations.UpdateWithinBlock
  refine fun s data rest hl hn hh hr => ⟨fun c hc hfit => ?_, fun c hc hfit => ?_⟩
  · obtain ⟨hH, hpasses, -, hlen, hbuf⟩ := absorbAll_within (compress := compress32) data c.toStream s.draws hfit
    exact ⟨_, _, exec_update_of_ctx32 hc hl hh hr, rfl, hH, hlen, by simp [hpasses], hbuf⟩
  · obtain ⟨hH, hpasses, -, hlen, hbuf⟩ := absorbAll_within (compress := compress64) data c.toStream s.draws hfit
    exact ⟨_, _, exec_update_of_ctx64 hc hl hh hr, rfl, hH, hlen, by simp [hpasses], hbuf⟩

/-! ## One byte -/

section OneByte

variable {w bs : Nat} {compress : Vector (BitVec w) 8 → Vector Byte bs → Vector (BitVec w) 8}

/-- The loop over one byte short of a full block (R217). -/
theorem absorbAll_singleton_of_lt (st : Stream w bs) (k : Nat) (x : Byte) (h : st.bufferLen.val + 1 < bs) :
    absorbAll compress st k [x] =
      { stream := { st with buf := st.buf.set st.bufferLen.val x, bufferLen := ⟨st.bufferLen.val + 1, h⟩ }
        passes := []
        draws := k } :=
  absorb_of_lt { stream := st, passes := [], draws := k } x h

/-- The loop over the byte that fills the block (R218). -/
theorem absorbAll_singleton_of_full (st : Stream w bs) (k : Nat) (x : Byte) (h : st.bufferLen.val + 1 = bs) :
    absorbAll compress st k [x] =
      { stream :=
          { H := compress st.H (st.buf.set st.bufferLen.val x)
            buf := staleBuffer bs k
            bufferLen := ⟨0, Nat.zero_lt_of_lt st.bufferLen.isLt⟩ }
        passes := [{ hin := st.H, block := st.buf.set st.bufferLen.val x
                     hout := compress st.H (st.buf.set st.bufferLen.val x) }]
        draws := k + 1 } :=
  absorb_of_full { stream := st, passes := [], draws := k } x h

end OneByte

/-- Settles O17: the two cases of the loop over one byte, on each shape. -/
theorem updateAbsorbsByte : Obligations.UpdateAbsorbsByte := by
  unfold Obligations.UpdateAbsorbsByte
  intro s x rest hl hh hr
  refine ⟨fun c hc => ?_, fun c hc => ?_⟩
  · have hexec := exec_update_of_ctx32 (data := [x]) hc hl hh hr
    refine ⟨fun h => ?_, fun h => ?_⟩
    · rw [absorbAll_singleton_of_lt _ _ _ h] at hexec
      simpa [countBits32] using hexec
    · rw [absorbAll_singleton_of_full _ _ _ h] at hexec
      exact ⟨_, _, hexec, rfl, rfl, rfl, rfl, by simp, rfl, rfl, rfl, rfl, rfl, rfl⟩
  · have hexec := exec_update_of_ctx64 (data := [x]) hc hl hh hr
    have hcount := countBits64_toNat (n := 1) (by decide) ((hasRoom_ctx64 hc 1).mp hr)
    refine ⟨fun h => ?_, fun h => ?_⟩
    · rw [absorbAll_singleton_of_lt _ _ _ h] at hexec
      exact ⟨_, _, hcount, by simpa using hexec⟩
    · rw [absorbAll_singleton_of_full _ _ _ h] at hexec
      exact ⟨_, _, hexec, rfl, rfl, rfl, hcount, by simp, rfl, rfl, rfl, rfl, rfl, rfl⟩

/-! ## No byte -/

@[simp] theorem countBits32_zero (c : Ctx32) : countBits32 c 0 = c.bitLength := by
  simp [countBits32]

@[simp] theorem countBitsLo_zero (lo : Word64) : countBitsLo lo 0 = lo := by
  simp [countBitsLo, lowSum]

@[simp] theorem countBitsHi_zero (hi lo : Word64) : countBitsHi hi lo 0 = hi := by
  have := lo.isLt
  simp [countBitsHi, lowSum, this]

/-- A counter that counts nothing cannot overflow. -/
theorem hasRoom_zero (s : State) : s.HasRoom 0 := by
  cases hc : s.ctx with
  | ctx32 c => exact (hasRoom_ctx32 hc 0).mpr c.bitLength.isLt
  | ctx64 c =>
    have hhi := c.bitLengthHi.isLt
    have hlo := c.bitLengthLo.isLt
    exact (hasRoom_ctx64 hc 0).mpr (by omega)

/-- Settles O21: the loop over no byte keeps the stream, and the counter counts nothing. -/
theorem emptyUpdateOnlyMovesPhase : Obligations.EmptyUpdateOnlyMovesPhase := by
  unfold Obligations.EmptyUpdateOnlyMovesPhase
  intro s hl
  cases hc : s.ctx with
  | ctx32 c => simpa [← hc] using exec_update_of_ctx32 (data := []) hc hl rfl (hasRoom_zero s)
  | ctx64 c => simpa [← hc] using exec_update_of_ctx64 (data := []) hc hl rfl (hasRoom_zero s)

end Sys2Proof.Machine
end

section
/-! Chunking invariance (R223): two UPDATEs, one after the other, are one UPDATE of both payloads but for a response,
and so is any number of them. -/

namespace Sys2Proof.Machine

/-! ## The counters -/

/-- The 64-bit counter counts one payload after the other. -/
theorem countBits32_add (c : Ctx32) (st : Stream 32 Config.blockBytes32) (m n : Nat) :
    countBits32 { st with bitLength := countBits32 c m } n = countBits32 c (m + n) := by
  simp only [countBits32, Nat.mul_add, BitVec.ofNat_add, BitVec.add_assoc]

/-- A value of the 128-bit counter has one pair of words. -/
theorem counterWords_unique {hi lo hi' lo' : Word64}
    (h : hi.toNat * 2 ^ 64 + lo.toNat = hi'.toNat * 2 ^ 64 + lo'.toNat) : hi = hi' ∧ lo = lo' := by
  have hlt := lo.isLt
  have hlt' := lo'.isLt
  exact ⟨BitVec.eq_of_toNat_eq (by omega), BitVec.eq_of_toNat_eq (by omega)⟩

/-- The 128-bit counter counts one payload after the other. -/
theorem countBits64_add {hi lo : Word64} {m n : Nat} (hn : m + n < 2 ^ 24)
    (h : hi.toNat * 2 ^ 64 + lo.toNat + 8 * (m + n) < 2 ^ 128) :
    countBitsHi (countBitsHi hi lo m) (countBitsLo lo m) n = countBitsHi hi lo (m + n) ∧
      countBitsLo (countBitsLo lo m) n = countBitsLo lo (m + n) := by
  have hm := countBits64_toNat (hi := hi) (lo := lo) (n := m) (by omega) (by omega)
  apply counterWords_unique
  rw [countBits64_toNat (by omega) (by rwa [hm, Nat.add_assoc, ← Nat.mul_add]), hm, countBits64_toNat hn h,
    Nat.add_assoc, ← Nat.mul_add]

/-- Room for a payload is room for a shorter one. -/
theorem State.HasRoom.of_le {s : State} {m n : Nat} (h : s.HasRoom n) (hmn : m ≤ n) : s.HasRoom m := by
  rw [State.HasRoom] at h ⊢
  omega

/-- The room an UPDATE leaves is what was there, less its payload (R219, R220). -/
theorem hasRoom_update {s : State} {data : List Byte} {n : Nat} (hn : data.length < 2 ^ 24)
    (hr : s.HasRoom (data.length + n)) : (s.update data).HasRoom n := by
  have hr' : s.HasRoom data.length := hr.of_le (Nat.le_add_right _ _)
  cases hc : s.ctx with
  | ctx32 c =>
    rw [update_of_ctx32 hc hr']
    rw [hasRoom_ctx32 hc] at hr hr'
    rw [hasRoom_ctx32 rfl, countBits32_toNat hr']
    rwa [Nat.add_assoc, ← Nat.mul_add]
  | ctx64 c =>
    rw [update_of_ctx64 hc hr']
    rw [hasRoom_ctx64 hc] at hr hr'
    rw [hasRoom_ctx64 rfl, countBits64_toNat hn hr']
    rwa [Nat.add_assoc, ← Nat.mul_add]

/-! ## Two UPDATEs -/

/-- `t` and `t'` differ at most in the responses they have given, on RSP and in the trace, and in the counter of free
values: the agreement that R223 asks for, with the buffer's stale bytes too (log entry 6). -/
def State.SameButResponses (t t' : State) : Prop :=
  t.ctx = t'.ctx ∧ t.phase = t'.phase ∧ t.variant = t'.variant ∧ t.faultCode = t'.faultCode ∧ t.host = t'.host ∧
    t.pending = t'.pending ∧ t.trace.filter Event.isPass = t'.trace.filter Event.isPass

theorem State.SameButResponses.refl (t : State) : t.SameButResponses t := ⟨rfl, rfl, rfl, rfl, rfl, rfl, rfl⟩

theorem State.SameButResponses.trans {t t' t'' : State} (h : t.SameButResponses t') (h' : t'.SameButResponses t'') :
    t.SameButResponses t'' := by
  obtain ⟨hctx, hphase, hvariant, hcode, hhost, hpending, htrace⟩ := h
  obtain ⟨hctx', hphase', hvariant', hcode', hhost', hpending', htrace'⟩ := h'
  exact ⟨hctx.trans hctx', hphase.trans hphase', hvariant.trans hvariant', hcode.trans hcode', hhost.trans hhost',
    hpending.trans hpending', htrace.trans htrace'⟩

/-- Two UPDATEs with room for both payloads reach what one UPDATE of the two together reaches: the loops compose
(`absorbAll_append`), and so do the counters. -/
theorem update_update {s : State} {a b : List Byte} (hn : a.length + b.length < 2 ^ 24)
    (hr : s.HasRoom (a.length + b.length)) : ((s.update a).update b).SameButResponses (s.update (a ++ b)) := by
  have hra : s.HasRoom a.length := hr.of_le (Nat.le_add_right _ _)
  have hrb : (s.update a).HasRoom b.length := hasRoom_update (by omega) hr
  have hrab : s.HasRoom (a ++ b).length := by rwa [List.length_append]
  cases hc : s.ctx with
  | ctx32 c =>
    rw [update_of_ctx32 hc hra] at hrb ⊢
    rw [update_of_ctx32 rfl hrb, update_of_ctx32 hc hrab]
    refine ⟨?_, rfl, rfl, rfl, rfl, rfl, ?_⟩
    · simp [absorbAll_append, countBits32_add]
    · simp [absorbAll_append, Event.isPass, List.filter_append]
  | ctx64 c =>
    obtain ⟨hhi, hlo⟩ := countBits64_add hn ((hasRoom_ctx64 hc _).mp hr)
    rw [update_of_ctx64 hc hra] at hrb ⊢
    rw [update_of_ctx64 rfl hrb, update_of_ctx64 hc hrab]
    refine ⟨?_, rfl, rfl, rfl, rfl, rfl, ?_⟩
    · simp [absorbAll_append, hhi, hlo]
    · simp [absorbAll_append, Event.isPass, List.filter_append]

/-! ## Any number of UPDATEs -/

/-- A live instance takes an UPDATE whose payload is all the host has to give. -/
theorem exec_update_payloads {s : State} (hl : s.Live) (data : List Byte) :
    exec (.update data.length) { s with host := payloads data } = .next (State.update { s with host := [] } data) :=
  exec_update_of_live (s := { s with host := payloads data }) hl (List.append_nil _).symm

/-- `feed` on an instance whose host has nothing else to give, after its first chunk. -/
theorem feed_cons {s : State} (hl : s.Live) (hh : s.host = []) (data : List Byte) (chunks : List (List Byte)) :
    feed (data :: chunks) s = feed chunks (s.update data) := by
  rw [feed, exec_update_payloads hl, ← hh]

/-- A first chunk and any others, by induction on the others: each of them joins the UPDATE before it. -/
theorem feed_cons_sameButResponses {s : State} {data : List Byte} {chunks : List (List Byte)} (hl : s.Live)
    (hh : s.host = []) (hn : (data ++ chunks.flatten).length < 2 ^ 24)
    (hr : s.HasRoom (data ++ chunks.flatten).length) :
    ∃ t, feed (data :: chunks) s = .next t ∧ t.SameButResponses (s.update (data ++ chunks.flatten)) := by
  induction chunks generalizing s data with
  | nil => exact ⟨_, feed_cons hl hh data [], by simpa using .refl _⟩
  | cons chunk chunks ih =>
    rw [List.flatten_cons, List.length_append] at hn hr
    have hlive : (s.update data).Live := .inr (update_phase (hr.of_le (Nat.le_add_right _ _)))
    obtain ⟨-, hhost, -⟩ := update_frame s data
    obtain ⟨t, hfeed, hsame⟩ := ih hlive (hhost.trans hh) (by omega) (hasRoom_update (by omega) hr)
    exact ⟨t, (feed_cons hl hh data _).trans hfeed, hsame.trans (update_update hn hr)⟩

/-- Settles O22: a split of one or more chunks is a first chunk and others. -/
theorem chunkingInvariance : Obligations.ChunkingInvariance := by
  unfold Obligations.ChunkingInvariance
  intro s chunks hne hl hn hr
  obtain ⟨data, chunks, rfl⟩ := List.exists_cons_of_ne_nil hne
  obtain ⟨t, hfeed, hsame⟩ := feed_cons_sameButResponses (s := { s with host := [] }) hl rfl hn hr
  exact ⟨t, _, hfeed, exec_update_payloads hl _, hsame⟩

end Sys2Proof.Machine
end

section
/-! FINALIZE block by block (R250 to R260): the next state on each shape, the bytes of the length field and of the
digest, and from them the four ways a last block or two can lie. -/

namespace Sys2Proof.Machine

/-! ## The next state -/

/-- The end of FINALIZE, field by field (R259, R260). -/
theorem finish_eq (s : State) (passes : List Event) (digest : List Byte) :
    s.finish passes digest = { s with
      phase := .finalized
      variant := .v256
      ctx := .ctx32 Ctx32.zero
      trace := s.trace ++ (passes ++ [.response .ok digest])
      rsp := s.rsp ++ 0x00 :: digest } := by
  rw [← List.append_assoc]
  rfl

/-- A live FINALIZE on a Ctx32. -/
theorem exec_finalize_of_ctx32 {s : State} {c : Ctx32} (hl : s.Live) (hc : s.ctx = .ctx32 c) :
    exec .finalize s = .next
      (s.finish ((c.toStream.finalPasses compress32 (bytesBE c.bitLength)).passes.map Event.compress32)
        (truncateDigest s.variant (serialize (c.toStream.finalPasses compress32 (bytesBE c.bitLength)).H))) := by
  rw [exec_finalize_of_live hl, finalize_of_ctx32 hc]

/-- The length field of Ctx64: the high word, then the low one (R254). -/
def Ctx64.lengthField (c : Ctx64) : List Byte := bytesBE c.bitLengthHi ++ bytesBE c.bitLengthLo

@[simp] theorem Ctx64.length_lengthField (c : Ctx64) : c.lengthField.length = 16 := by
  simp [Ctx64.lengthField]

/-- A live FINALIZE on a Ctx64. -/
theorem exec_finalize_of_ctx64 {s : State} {c : Ctx64} (hl : s.Live) (hc : s.ctx = .ctx64 c) :
    exec .finalize s = .next
      (s.finish ((c.toStream.finalPasses compress64 c.lengthField).passes.map Event.compress64)
        (truncateDigest s.variant (serialize (c.toStream.finalPasses compress64 c.lengthField).H))) := by
  rw [exec_finalize_of_live hl, finalize_of_ctx64 hc, Ctx64.lengthField]

/-! ## The bytes of the length field (R253, R254) -/

/-- A word that fills the bytes `lo` to `last` of a block: byte `i` has as many bytes of the word behind it as there are
from `i` to `last`. -/
theorem getD_bytesBE_toNat_of_last {w lo last i : Nat} (x : BitVec w) (hw : w = 8 * (last + 1 - lo)) (hlo : lo ≤ i)
    (hlast : i ≤ last) : ((bytesBE x).getD (i - lo) 0).toNat = x.toNat / 2 ^ (8 * (last - i)) % 2 ^ 8 := by
  rw [getD_bytesBE_toNat x (by omega), show w - 8 * (i - lo + 1) = 8 * (last - i) by omega]

/-- Bytes 112 to 119 of a block that ends in the length field. -/
theorem Ctx64.getD_lengthField_hi (c : Ctx64) {i : Nat} (hlo : 112 ≤ i) (hhi : i < 120) :
    (c.lengthField.getD (i - 112) 0).toNat = c.bitLengthHi.toNat / 2 ^ (8 * (119 - i)) % 2 ^ 8 := by
  rw [Ctx64.lengthField, List.getD_append _ _ _ _ (by simp; omega)]
  exact getD_bytesBE_toNat_of_last c.bitLengthHi rfl hlo (by omega)

/-- Bytes 120 to 127 of a block that ends in the length field. -/
theorem Ctx64.getD_lengthField_lo (c : Ctx64) {i : Nat} (hlo : 120 ≤ i) (hhi : i < 128) :
    (c.lengthField.getD (i - 112) 0).toNat = c.bitLengthLo.toNat / 2 ^ (8 * (127 - i)) % 2 ^ 8 := by
  rw [Ctx64.lengthField, List.getD_append_right _ _ _ _ (by simp; omega), length_bytesBE, Nat.sub_sub]
  exact getD_bytesBE_toNat_of_last c.bitLengthLo rfl hlo (by omega)

/-! ## The bytes of the digest (R257, R258) -/

/-- The digest of a Ctx32 (R257). -/
theorem getD_serialize32_toNat (H : Vector Word32 8) (k : Fin 8) (j : Fin 4) :
    ((serialize H).getD (4 * k.val + j.val) 0).toNat = H[k].toNat / 2 ^ (8 * (3 - j.val)) % 2 ^ 8 := by
  rw [show 8 * (3 - j.val) = 32 - 8 * (j.val + 1) by omega]
  exact getD_serialize_toNat H k j.isLt

/-- The length of a digest of the 64-bit core (R258). -/
theorem length_truncateDigest_serialize64 (v : Variant) (H : Vector Word64 8) :
    (truncateDigest v (serialize H)).length = if v = .v384 then 48 else 64 := by
  cases v with
  | v256 => exact length_serialize H
  | v512 => exact length_serialize H
  | v384 => simp [truncateDigest, length_serialize, Config.digestBytes384]

/-- What truncation keeps, it does not change (R258). -/
theorem getD_truncateDigest {v : Variant} {digest : List Byte} {i : Nat}
    (h : i < (truncateDigest v digest).length) : (truncateDigest v digest).getD i 0 = digest.getD i 0 := by
  cases v with
  | v256 => rfl
  | v512 => rfl
  | v384 =>
    have hlen : i < digest.length := by simp [truncateDigest] at h; omega
    rw [List.getD_eq_getElem _ _ h, List.getD_eq_getElem _ _ hlen]
    exact List.getElem_take

/-- The digest of a Ctx64, as far as truncation leaves it (R257, R258). -/
theorem getD_truncateDigest_serialize64_toNat {v : Variant} {H : Vector Word64 8} (k j : Fin 8)
    (h : 8 * k.val + j.val < (truncateDigest v (serialize H)).length) :
    ((truncateDigest v (serialize H)).getD (8 * k.val + j.val) 0).toNat =
      H[k].toNat / 2 ^ (8 * (7 - j.val)) % 2 ^ 8 := by
  rw [getD_truncateDigest h, show 8 * (7 - j.val) = 64 - 8 * (j.val + 1) by omega]
  exact getD_serialize_toNat H k j.isLt

/-! ## One block or two -/

/-- Settles O24: the one block of `finalPasses_oneBlock`, whose field is the 64-bit counter. -/
theorem finalize32OneBlock : Obligations.Finalize32OneBlock := by
  unfold Obligations.Finalize32OneBlock
  intro s c hl hv hc hlt
  have hblocks := finalPasses_oneBlock (compress := compress32) c.toStream (bytesBE c.bitLength)
  rw [length_bytesBE] at hblocks
  obtain ⟨B, hdata, hend, hzero, hfield, hH, hpasses⟩ := hblocks hlt
  refine ⟨B, serialize (compress32 c.H B), hdata, hend, hzero, fun i hi => ?_, length_serialize _,
    getD_serialize32_toNat _, ?_⟩
  · rw [hfield i hi]
    exact getD_bytesBE_toNat_of_last c.bitLength rfl hi (by omega)
  · rw [exec_finalize_of_ctx32 hl hc, hpasses, hH, hv, finish_eq]
    rfl

/-- Settles O25: the two blocks of `finalPasses_twoBlocks`, whose field is the 64-bit counter. -/
theorem finalize32TwoBlocks : Obligations.Finalize32TwoBlocks := by
  unfold Obligations.Finalize32TwoBlocks
  intro s c hl hv hc hge
  have hblocks := finalPasses_twoBlocks (compress := compress32) c.toStream (bytesBE c.bitLength)
  rw [length_bytesBE] at hblocks
  obtain ⟨B, B', hdata, hend, hzero, hzero', hfield, hH, hpasses⟩ := hblocks (by decide) hge
  refine ⟨B, B', _, _, serialize (compress32 (compress32 c.H B) B'), hdata, hend, hzero, rfl, hzero', fun i hi => ?_,
    rfl, length_serialize _, getD_serialize32_toNat _, ?_⟩
  · rw [hfield i hi]
    exact getD_bytesBE_toNat_of_last c.bitLength rfl hi (by omega)
  · rw [exec_finalize_of_ctx32 hl hc, hpasses, hH, hv, finish_eq]
    rfl

/-- Settles O26: the one block of `finalPasses_oneBlock`, whose field is the 128-bit counter. -/
theorem finalize64OneBlock : Obligations.Finalize64OneBlock := by
  unfold Obligations.Finalize64OneBlock
  intro s c hl _ hc hlt
  have hblocks := finalPasses_oneBlock (compress := compress64) c.toStream c.lengthField
  rw [c.length_lengthField] at hblocks
  obtain ⟨B, hdata, hend, hzero, hfield, hH, hpasses⟩ := hblocks hlt
  refine ⟨B, truncateDigest s.variant (serialize (compress64 c.H B)), hdata, hend, hzero, fun i hi hi' => ?_,
    fun i hi => ?_, length_truncateDigest_serialize64 _ _, fun k j => getD_truncateDigest_serialize64_toNat k j, ?_⟩
  · rw [hfield i hi]
    exact c.getD_lengthField_hi hi hi'
  · rw [hfield i (Nat.le_trans (by decide) hi)]
    exact c.getD_lengthField_lo hi i.isLt
  · rw [exec_finalize_of_ctx64 hl hc, hpasses, hH, finish_eq]
    rfl

/-- Settles O27: the two blocks of `finalPasses_twoBlocks`, whose field is the 128-bit counter. -/
theorem finalize64TwoBlocks : Obligations.Finalize64TwoBlocks := by
  unfold Obligations.Finalize64TwoBlocks
  intro s c hl _ hc hge
  have hblocks := finalPasses_twoBlocks (compress := compress64) c.toStream c.lengthField
  rw [c.length_lengthField] at hblocks
  obtain ⟨B, B', hdata, hend, hzero, hzero', hfield, hH, hpasses⟩ := hblocks (by decide) hge
  refine ⟨B, B', _, _, truncateDigest s.variant (serialize (compress64 (compress64 c.H B) B')), hdata, hend, hzero, rfl,
    hzero', fun i hi hi' => ?_, fun i hi => ?_, rfl, length_truncateDigest_serialize64 _ _,
    fun k j => getD_truncateDigest_serialize64_toNat k j, ?_⟩
  · rw [hfield i hi]
    exact c.getD_lengthField_hi hi hi'
  · rw [hfield i (Nat.le_trans (by decide) hi)]
    exact c.getD_lengthField_lo hi i.isLt
  · rw [exec_finalize_of_ctx64 hl hc, hpasses, hH, finish_eq]
    rfl

/-! ## Any live instance -/

/-- On either shape: passes and a digest, whose length is the variant's where the shape is too (R258 to R260). -/
theorem exec_finalize_eq_finish {s : State} (hl : s.Live) : ∃ (passes : List Event) (D : List Byte),
    exec .finalize s = .next (s.finish passes D) ∧ (∀ e ∈ passes, e.isPass = true) ∧
      (s.shapeMatches = true → D.length = if s.variant = .v256 then 32 else if s.variant = .v512 then 64 else 48) := by
  cases hc : s.ctx with
  | ctx32 c =>
    refine ⟨_, _, exec_finalize_of_ctx32 hl hc, List.forall_mem_map.mpr fun _ _ => rfl, fun hs => ?_⟩
    rw [(shapeMatches_of_ctx32 hc).mp hs]
    exact length_serialize _
  | ctx64 c =>
    refine ⟨_, _, exec_finalize_of_ctx64 hl hc, List.forall_mem_map.mpr fun _ _ => rfl, fun hs => ?_⟩
    have hv := (shapeMatches_of_ctx64 hc).mp hs
    rw [length_truncateDigest_serialize64]
    cases hvariant : s.variant with
    | v256 => exact absurd hvariant hv
    | v512 => rfl
    | v384 => rfl

/-- Settles O28: the fields of `State.finish`. -/
theorem finalizeZeroizes : Obligations.FinalizeZeroizes := by
  unfold Obligations.FinalizeZeroizes
  intro s hl
  obtain ⟨passes, D, hexec, hpass, hlen⟩ := exec_finalize_eq_finish hl
  exact ⟨_, passes, D, hexec, ⟨_, rfl, Ctx32.zero_values⟩, rfl, rfl, rfl, rfl, rfl, rfl, hpass, rfl, hlen⟩

end Sys2Proof.Machine
end

section
/-! The digest of a message (R261 to R263, R334): of the one a context holds, which FINALIZE answers, and of the one that
INIT, any UPDATEs and FINALIZE send. -/

namespace Sys2Proof.Machine

/-! ## FINALIZE of a context that holds a message -/

/-- FINALIZE's passes for a message: two when its last bytes leave no room for the padding (R261). -/
def finalPassCount (v : Variant) (msg : List Byte) : Nat :=
  if msg.length % blockSize v ≥ blockSize v - lengthFieldSize v then 2 else 1

/-- FINALIZE of a Ctx32 that has absorbed a message. -/
theorem exec_finalize_absorbed32 {s : State} {c : Ctx32} {iv : Vector Word32 8} {msg : List Byte} (hl : s.Live)
    (hc : s.ctx = .ctx32 c) (ha : c.toStream.Absorbed compress32 iv msg) (hb : c.bits = 8 * msg.length) :
    ∃ passes, exec .finalize s = .next (s.finish passes (truncateDigest s.variant (serialize (chainBlocks compress32 iv
        (wholeBlocks Config.blockBytes32 (paddedMessage Config.blockBytes32 Config.lengthBytes32 msg)))))) ∧
      passCount passes = finalPassCount .v256 msg := by
  have hfield : bytesBE c.bitLength = bytesBE (BitVec.ofNat (8 * Config.lengthBytes32) (8 * msg.length)) := by
    rw [← hb, Ctx32.bits, BitVec.ofNat_toNat]
    rfl
  rw [exec_finalize_of_ctx32 hl hc, finalPasses_paddedMessage ha (by decide) _ hfield]
  refine ⟨_, rfl, ?_⟩
  rw [passCount_map_compress32, finalPasses_count, ha.length, length_bytesBE]
  rfl

/-- FINALIZE of a Ctx64 that has absorbed a message. -/
theorem exec_finalize_absorbed64 {s : State} {c : Ctx64} {iv : Vector Word64 8} {msg : List Byte} (hl : s.Live)
    (hc : s.ctx = .ctx64 c) (ha : c.toStream.Absorbed compress64 iv msg) (hb : c.bits = 8 * msg.length) :
    ∃ passes, exec .finalize s = .next (s.finish passes (truncateDigest s.variant (serialize (chainBlocks compress64 iv
        (wholeBlocks Config.blockBytes64 (paddedMessage Config.blockBytes64 Config.lengthBytes64 msg)))))) ∧
      passCount passes = finalPassCount .v512 msg := by
  have hfield : c.lengthField = bytesBE (BitVec.ofNat (8 * Config.lengthBytes64) (8 * msg.length)) := lengthField64 hb
  rw [exec_finalize_of_ctx64 hl hc, finalPasses_paddedMessage ha (by decide) _ hfield]
  refine ⟨_, rfl, ?_⟩
  rw [passCount_map_compress64, finalPasses_count, ha.length, c.length_lengthField]
  rfl

/-- R263: the digest by the padding rule, in as many passes as R261 says. -/
theorem State.HoldsMessage.exec_finalize {s : State} {v : Variant} {msg : List Byte} (h : s.HoldsMessage v msg) :
    ∃ passes, exec .finalize s = .next (s.finish passes (messageDigest v msg)) ∧
      passCount passes = finalPassCount v msg := by
  obtain ⟨hl, hv, hctx⟩ := h
  cases v with
  | v256 =>
    obtain ⟨c, hc, ha, hb⟩ := hctx
    have hfinal := exec_finalize_absorbed32 hl hc ha hb
    rwa [hv] at hfinal
  | v512 =>
    obtain ⟨c, hc, ha, hb⟩ := hctx
    have hfinal := exec_finalize_absorbed64 hl hc ha hb
    rwa [hv] at hfinal
  | v384 =>
    obtain ⟨c, hc, ha, hb⟩ := hctx
    have hfinal := exec_finalize_absorbed64 hl hc ha hb
    rwa [hv] at hfinal

/-- Settles O56: the passes compress the last blocks of the padded message (`finalPasses_paddedMessage`). -/
theorem finalizeGivesMessageDigest : Obligations.FinalizeGivesMessageDigest := by
  unfold Obligations.FinalizeGivesMessageDigest
  intro s v msg h
  obtain ⟨passes, hexec, hcount⟩ := h.exec_finalize
  exact ⟨_, passes, hexec, rfl, rfl, hcount⟩

/-! ## UPDATE's passes, counted from the start of the message -/

/-- UPDATE's passes bring the whole blocks of the message before it to those of the message after it (R224). -/
theorem absorbAll_passes_of_absorbed {w bs : Nat} {compress : Vector (BitVec w) 8 → Vector Byte bs → Vector (BitVec w) 8}
    {iv : Vector (BitVec w) 8} {msg : List Byte} {st : Stream w bs} (h : st.Absorbed compress iv msg) (k : Nat)
    (data : List Byte) :
    msg.length / bs + (absorbAll compress st k data).passes.length = (msg ++ data).length / bs := by
  have hbs : 0 < bs := Nat.zero_lt_of_lt st.bufferLen.isLt
  obtain ⟨hcount, -⟩ := absorbAll_count (compress := compress) data st k
  rw [hcount, h.length, ← Nat.mul_add_div hbs, ← Nat.add_assoc, Nat.div_add_mod, List.length_append]

/-- What UPDATE adds to the trace on a Ctx32 that holds a message. -/
theorem update_events32 {s : State} {c : Ctx32} {iv : Vector Word32 8} {msg data : List Byte} (hc : s.ctx = .ctx32 c)
    (ha : c.toStream.Absorbed compress32 iv msg) (hr : s.HasRoom data.length) :
    ∃ events, (s.update data).trace = s.trace ++ events ∧
      msg.length / Config.blockBytes32 + passCount events = (msg ++ data).length / Config.blockBytes32 := by
  rw [update_of_ctx32 hc hr]
  refine ⟨_, List.append_assoc .., ?_⟩
  rw [passCount_append, passCount_map_compress32]
  exact absorbAll_passes_of_absorbed ha s.draws data

/-- What UPDATE adds to the trace on a Ctx64 that holds a message. -/
theorem update_events64 {s : State} {c : Ctx64} {iv : Vector Word64 8} {msg data : List Byte} (hc : s.ctx = .ctx64 c)
    (ha : c.toStream.Absorbed compress64 iv msg) (hr : s.HasRoom data.length) :
    ∃ events, (s.update data).trace = s.trace ++ events ∧
      msg.length / Config.blockBytes64 + passCount events = (msg ++ data).length / Config.blockBytes64 := by
  rw [update_of_ctx64 hc hr]
  refine ⟨_, List.append_assoc .., ?_⟩
  rw [passCount_append, passCount_map_compress64]
  exact absorbAll_passes_of_absorbed ha s.draws data

theorem State.HoldsMessage.update_events {s : State} {v : Variant} {msg data : List Byte} (h : s.HoldsMessage v msg)
    (hr : s.HasRoom data.length) : ∃ events, (s.update data).trace = s.trace ++ events ∧
      msg.length / blockSize v + passCount events = (msg ++ data).length / blockSize v := by
  obtain ⟨-, -, hctx⟩ := h
  cases v with
  | v256 =>
    obtain ⟨c, hc, ha, -⟩ := hctx
    exact update_events32 hc ha hr
  | v512 =>
    obtain ⟨c, hc, ha, -⟩ := hctx
    exact update_events64 hc ha hr
  | v384 =>
    obtain ⟨c, hc, ha, -⟩ := hctx
    exact update_events64 hc ha hr

/-! ## The steps of the protocol (R334) -/

theorem run_succ_of_step {s t : State} (h : step s = .next t) (k : Nat) :
    Host.Core.run core (k + 1) s = Host.Core.run core k t := by
  simp [Host.Core.run, core, h]

/-- The host's next action is the word of a command. -/
theorem step_of_encode {s : State} {i : Instr} {rest : List HostAction} (hi : i.wellFormed = true)
    (hp : s.pending = none) (hh : s.host = .command (encode i) :: rest) : step s = exec i { s with host := rest } :=
  step_of_command hp hh (decode_encode hi)

/-- Between two steps of the protocol: the instance holds `msg`, no UPDATE waits, and the host goes on with `rest`. -/
structure State.HoldsBefore (s : State) (v : Variant) (msg : List Byte) (rest : List HostAction) : Prop where
  holds : s.HoldsMessage v msg
  pending : s.pending = none
  host : s.host = rest

/-- The step of INIT. -/
theorem step_initOf {s : State} {v : Variant} {rest : List HostAction} (hfault : s.phase ≠ .faulted)
    (hp : s.pending = none) (hh : s.host = .command (encode (initOf v)) :: rest) :
    ∃ t, step s = .next t ∧ t.HoldsBefore v [] rest ∧ t.trace = s.trace ++ [.response .ok []] := by
  rw [step_of_encode (initOf_wellFormed v) hp hh, exec_initOf_of_not_faulted v (by exact hfault)]
  exact ⟨_, rfl, ⟨holdsMessage_initialize _ v, hp, rfl⟩, rfl⟩

/-- The step of an UPDATE with its payload: its passes are the whole blocks that the message gains. -/
theorem State.HoldsBefore.step_update {s : State} {v : Variant} {msg data : List Byte} {rest : List HostAction}
    (h : s.HoldsBefore v msg (updateActions data ++ rest)) (hn : data.length < 2 ^ 24) (hr : s.HasRoom data.length) :
    ∃ (t : State) (events : List Event), step s = .next t ∧ t.HoldsBefore v (msg ++ data) rest ∧
      t.trace = s.trace ++ events ∧
      msg.length / blockSize v + passCount events = (msg ++ data).length / blockSize v := by
  obtain ⟨hholds, hp, hh⟩ := h
  have hrest := hholds.setHost rest
  obtain ⟨-, hhost, hpending⟩ := update_frame { s with host := rest } data
  obtain ⟨events, htrace, hcount⟩ := hrest.update_events hr
  rw [step_of_encode ((wellFormed_update _).mpr hn) hp hh, exec_update_of_live (by exact hholds.1) rfl]
  exact ⟨_, events, rfl, ⟨hrest.update hn hr, hpending.trans hp, hhost⟩, htrace, hcount⟩

/-- One UPDATE a chunk, by induction on the chunks: as many steps later the instance holds the whole message, and the
passes so far are its whole blocks. -/
theorem State.HoldsBefore.run_updates {s : State} {v : Variant} {msg : List Byte} {chunks : List (List Byte)}
    {rest : List HostAction} (h : s.HoldsBefore v msg (chunks.flatMap updateActions ++ rest))
    (hn : ∀ d ∈ chunks, d.length < 2 ^ 24) (hbound : 8 * (msg ++ chunks.flatten).length < counterBound v) :
    ∃ (t : State) (events : List Event),
      (∀ k, Host.Core.run core (chunks.length + k) s = Host.Core.run core k t) ∧
      t.HoldsBefore v (msg ++ chunks.flatten) rest ∧ t.trace = s.trace ++ events ∧
      msg.length / blockSize v + passCount events = (msg ++ chunks.flatten).length / blockSize v := by
  induction chunks generalizing s msg with
  | nil => exact ⟨s, [], by simp, by simpa using h, by simp, by simp [passCount]⟩
  | cons data chunks ih =>
    rw [List.forall_mem_cons] at hn
    rw [List.flatMap_cons, List.append_assoc] at h
    rw [List.flatten_cons, ← List.append_assoc] at hbound ⊢
    have hr : s.HasRoom data.length := h.holds.hasRoom (by simp only [List.length_append] at hbound; omega)
    obtain ⟨u, events, hstep, hu, htrace, hcount⟩ := h.step_update hn.1 hr
    obtain ⟨t, events', hrun, ht, htrace', hcount'⟩ := ih hu hn.2 hbound
    refine ⟨t, events ++ events', fun k => ?_, ht, ?_, ?_⟩
    · rw [List.length_cons, Nat.add_right_comm, run_succ_of_step hstep, hrun]
    · rw [htrace', htrace, List.append_assoc]
    · rw [passCount_append, ← Nat.add_assoc, hcount, hcount']

/-- The step of FINALIZE. -/
theorem State.HoldsBefore.step_finalize {s : State} {v : Variant} {msg : List Byte} {rest : List HostAction}
    (h : s.HoldsBefore v msg (.command (encode .finalize) :: rest)) :
    ∃ passes, step s = .next (State.finish { s with host := rest } passes (messageDigest v msg)) ∧
      passCount passes = finalPassCount v msg := by
  rw [step_of_encode rfl h.pending h.host]
  exact (h.holds.setHost rest).exec_finalize

/-- Settles O57: INIT makes the message empty, the UPDATEs make it the whole one, and FINALIZE answers its digest. -/
theorem hashProtocolGivesDigest : Obligations.HashProtocolGivesDigest := by
  unfold Obligations.HashProtocolGivesDigest
  intro s v chunks rest hfault hp hh hn hbound
  rw [hashActions, List.cons_append, List.append_assoc] at hh
  obtain ⟨u, hinit, hu, hutrace⟩ := step_initOf hfault hp hh
  obtain ⟨t, events, hrun, ht, httrace, hcount⟩ := hu.run_updates hn hbound
  obtain ⟨passes, hfinal, hpasses⟩ := ht.step_finalize
  rw [run_succ_of_step hinit, hrun, run_succ_of_step hfinal]
  refine ⟨_, .response .ok [] :: (events ++ passes), rfl, ?_, ?_, rfl, rfl, rfl⟩
  · simp [httrace, hutrace]
  · calc passCount (.response .ok [] :: (events ++ passes))
      _ = passCount events + passCount passes := passCount_append events passes
      _ = chunks.flatten.length / blockSize v + finalPassCount v chunks.flatten := by simpa [hpasses] using hcount

end Sys2Proof.Machine
end

section
/-! Exceptions (R290 to R309): the status codes, the faults of a command and of an illegal word, and what the Faulted
phase answers. -/

namespace Sys2Proof.Machine

/-- Settles O29, by the seven statuses. -/
theorem statusCodes : Obligations.StatusCodes := by
  unfold Obligations.StatusCodes
  refine ⟨rfl, rfl, rfl, rfl, rfl, rfl, rfl, fun st => ?_⟩
  cases st <;> decide

/-- Settles O7: the equation of the idle step. -/
theorem idleKeepsState : Obligations.IdleKeepsState := by
  unfold Obligations.IdleKeepsState
  exact fun _ => step_of_idle

/-! ## Illegal words (R298, R299) -/

theorem step_of_illegal_of_not_faulted {s : State} {cmd : Word32} {rest : List HostAction} {e : IllegalWord}
    (hp : s.pending = none) (hh : s.host = .command cmd :: rest) (hd : decode cmd = .illegal e)
    (hf : s.phase ≠ .faulted) : step s = .next (State.raiseFault { s with host := rest } (illegalStatus e)) := by
  rw [step_of_illegal hp hh hd, rejectWord_of_not_faulted (by exact hf)]

/-- Settles O8: a word with such fields stands in the range that R96 gives ERR_ILLEGAL_COMMAND. -/
theorem illegalCommandWordFaults : Obligations.IllegalCommandWordFaults := by
  unfold Obligations.IllegalCommandWordFaults
  intro s cmd rest hp hh hf hfields
  have hrange : (Decoded.illegal .illegalCommand).IsMeaningOf cmd.toNat := by
    simp only [Decoded.IsMeaningOf]
    omega
  exact step_of_illegal_of_not_faulted hp hh (decode_of_isMeaningOf hrange) hf

/-- Settles O9: a word with such fields stands in the range that R96 gives ERR_ILLEGAL_VARIANT. -/
theorem illegalVariantWordFaults : Obligations.IllegalVariantWordFaults := by
  unfold Obligations.IllegalVariantWordFaults
  intro s cmd rest hp hh hf hop hreserved hvariant
  have hrange : (Decoded.illegal .illegalVariant).IsMeaningOf cmd.toNat := by
    simp only [Decoded.IsMeaningOf]
    omega
  exact step_of_illegal_of_not_faulted hp hh (decode_of_isMeaningOf hrange) hf

/-! ## UPDATE and FINALIZE in a phase that does not run them (R295 to R297, R300) -/

/-- Where the acceptance checks answer for a command that needs a context, whatever it would do and whatever the host
does next, both such commands get that answer, UPDATE once its payload is taken. -/
theorem exec_of_accept_true {s : State} {answer : State → State}
    (h : ∀ (rest : List HostAction) (f : State → State),
      State.accept { s with host := rest } true f = answer { s with host := rest }) :
    (∀ (data : List Byte) (rest : List HostAction), s.host = payloads data ++ rest →
      exec (.update data.length) s = .next (answer { s with host := rest })) ∧
    exec .finalize s = .next (answer s) := by
  refine ⟨fun data rest hh => ?_, ?_⟩
  · rw [exec, execUpdate_of_payloads hh, h]
  · rw [exec_finalize]
    exact congrArg _ (h s.host State.finalize)

/-- Settles O30: the answer of the acceptance checks in phase Uninitialized. -/
theorem uninitializedFaults : Obligations.UninitializedFaults := by
  unfold Obligations.UninitializedFaults
  exact fun s h => exec_of_accept_true (answer := fun s => s.raiseFault .errUninitialized)
    fun rest => accept_of_uninitialized (s := { s with host := rest }) h

/-- Settles O31: the answer of the acceptance checks in phase Finalized. -/
theorem finalizedFaults : Obligations.FinalizedFaults := by
  unfold Obligations.FinalizedFaults
  exact fun s h => exec_of_accept_true (answer := fun s => s.raiseFault .errFinalized)
    fun rest => accept_of_finalized (s := { s with host := rest }) h

/-- Settles O32: the two bounds are those of the length check (R221). -/
theorem lengthOverflowFaults : Obligations.LengthOverflowFaults := by
  unfold Obligations.LengthOverflowFaults
  intro s data rest hl hh hbound
  have hr : ¬ s.HasRoom data.length := by
    rcases hbound with ⟨c, hc, hge⟩ | ⟨c, hc, hge⟩
    · rw [hasRoom_ctx32 hc]
      exact Nat.not_lt.mpr hge
    · rw [hasRoom_ctx64 hc]
      exact Nat.not_lt.mpr hge
  rw [exec_update_of_live hl hh, update_of_no_room (by exact hr)]
  rfl

/-- Settles O33: the answer of the acceptance checks, and of the rejection of a word, in phase Faulted. -/
theorem faultedAnswersEveryCommand : Obligations.FaultedAnswersEveryCommand := by
  unfold Obligations.FaultedAnswersEveryCommand
  intro s h
  obtain ⟨hupdate, hfinalize⟩ := exec_of_accept_true (s := s) (answer := fun s => s.respond .errFaulted [])
    fun rest => accept_of_faulted (s := { s with host := rest }) h true
  refine ⟨fun i hi => ?_, hupdate, fun cmd rest e hp hh hd => ?_⟩
  · simp only [List.mem_cons, List.not_mem_nil, or_false] at hi
    rcases hi with rfl | rfl | rfl | rfl
    · exact exec_initOf_of_faulted .v256 h
    · exact exec_initOf_of_faulted .v512 h
    · exact exec_initOf_of_faulted .v384 h
    · exact hfinalize
  · rw [step_of_illegal hp hh hd, rejectWord_of_faulted (by exact h)]
    rfl

end Sys2Proof.Machine
end

section
/-! The Faulted phase over any step (R301, R302): how it is left, and how it is entered. -/

namespace Sys2Proof.Machine

/-! ## Leaving it -/

/-- `t` is Faulted with the code, the context and the variant of `s`. -/
def State.StaysFaulted (s t : State) : Prop :=
  t.phase = .faulted ∧ t.faultCode = s.faultCode ∧ t.ctx = s.ctx ∧ t.variant = s.variant

theorem exec_of_faulted {i : Instr} {s t : State} (hp : s.phase = .faulted) (h : exec i s = .next t) :
    s.StaysFaulted t ∨ (t.phase = .uninitialized ∧ t.trace = s.trace ++ [.reset] ∧ .reset ∈ s.host) := by
  obtain ⟨rest, ⟨-, rfl⟩ | ⟨hf, -⟩ | ⟨hf, -⟩ | ⟨hl, -⟩ | ⟨hl, -⟩ | ⟨n, -, rfl⟩ | ⟨hm, rfl⟩⟩ := exec_cases h
  · exact .inl ⟨hp, rfl, rfl, rfl⟩
  · exact absurd hp hf
  · exact absurd hp hf
  · exact absurd hp hl.not_faulted
  · exact absurd hp hl.not_faulted
  · exact .inl ⟨hp, rfl, rfl, rfl⟩
  · exact .inr ⟨rfl, rfl, hm⟩

/-- Settles O34: a command keeps the phase or meets a reset among its payload, and of the other steps only a reset
leaves it. -/
theorem onlyResetLeavesFaulted : Obligations.OnlyResetLeavesFaulted := by
  unfold Obligations.OnlyResetLeavesFaulted
  intro s t hp h
  obtain ⟨n, -, hx⟩ | ⟨-, ⟨-, rfl⟩ | ⟨cmd, rest, i, hh, -, hx⟩ | ⟨cmd, rest, e, -, -, rfl⟩ | ⟨rest, hh, rfl⟩ |
    ⟨cmd, data, rest, hh, -, rfl⟩⟩ := step_cases h
  · obtain hstay | ⟨hphase, htrace, hm⟩ := exec_of_faulted (s := { s with pending := none }) hp hx
    · exact .inl hstay
    · exact .inr ⟨hphase, htrace, .inl ⟨_, hm, rfl⟩⟩
  · exact .inl ⟨hp, rfl, rfl, rfl⟩
  · obtain hstay | ⟨hphase, htrace, hm⟩ := exec_of_faulted (s := { s with host := rest }) hp hx
    · exact .inl hstay
    · exact .inr ⟨hphase, htrace, .inl ⟨_, hh ▸ List.mem_cons_of_mem _ hm, rfl⟩⟩
  · rw [rejectWord_of_faulted (by exact hp)]
    exact .inl ⟨hp, rfl, rfl, rfl⟩
  · exact .inr ⟨rfl, rfl, .inl ⟨_, hh ▸ List.mem_cons_self, rfl⟩⟩
  · exact .inr ⟨rfl, rfl, .inr ⟨cmd, data, hh ▸ List.mem_cons_self⟩⟩

/-! ## Entering it -/

/-- From `s` to `t` a fault is recorded and answered, and the context and the variant stay (R294, R302). -/
def State.FaultsPrecisely (s t : State) : Prop :=
  t.ctx = s.ctx ∧ t.variant = s.variant ∧
    ∃ code : Status, code ≠ .ok ∧ code ≠ .errFaulted ∧ t.faultCode = code.code ∧
      t.trace = s.trace ++ [.response code []] ∧ t.rsp = s.rsp ++ [code.code]

theorem faultsPrecisely_raiseFault (s : State) {code : Status} (hok : code ≠ .ok) (hf : code ≠ .errFaulted) :
    s.FaultsPrecisely (s.raiseFault code) :=
  ⟨rfl, rfl, code, hok, hf, rfl, rfl, rfl⟩

/-- Of a command's effects only the taking of a fault ends in phase Faulted. -/
theorem exec_faultsPrecisely {i : Instr} {s t : State} (hp : s.phase ≠ .faulted) (h : exec i s = .next t)
    (ht : t.phase = .faulted) : s.FaultsPrecisely t := by
  obtain ⟨rest, ⟨hf, -⟩ | ⟨-, code, hok, hf, rfl⟩ | ⟨-, v, -, rfl⟩ | ⟨-, data, -, -, hr, rfl⟩ | ⟨-, -, rfl⟩ |
    ⟨n, -, rfl⟩ | ⟨-, rfl⟩⟩ := exec_cases h
  · exact absurd hf hp
  · exact faultsPrecisely_raiseFault { s with host := rest } hok hf
  · simp at ht
  · rw [update_phase (by exact hr)] at ht
    cases ht
  · rw [finalize_phase] at ht
    cases ht
  · exact absurd ht hp
  · simp at ht

/-- Settles O35: the step is a command that takes a fault, or an illegal word. -/
theorem faultsArePrecise : Obligations.FaultsArePrecise := by
  unfold Obligations.FaultsArePrecise
  intro s t hp h ht
  obtain ⟨n, -, hx⟩ | ⟨-, ⟨-, rfl⟩ | ⟨cmd, rest, i, -, -, hx⟩ | ⟨cmd, rest, e, -, -, rfl⟩ | ⟨rest, -, rfl⟩ |
    ⟨cmd, data, rest, -, -, rfl⟩⟩ := step_cases h
  · exact exec_faultsPrecisely (s := { s with pending := none }) hp hx ht
  · exact absurd ht hp
  · exact exec_faultsPrecisely (s := { s with host := rest }) hp hx ht
  · rw [rejectWord_of_not_faulted (by exact hp)]
    obtain ⟨hok, hf⟩ := illegalStatus_ne e
    exact faultsPrecisely_raiseFault { s with host := rest } hok hf
  · simp at ht
  · simp at ht

end Sys2Proof.Machine
end

section
/-! The host's payload duties (R335, R336), the reset of a command in progress (R330, R332) and the longest message
(R339). -/

namespace Sys2Proof.Machine

/-- Settles O6: the equation of the step that resumes an UPDATE. -/
theorem stepResumesWaitingUpdate : Obligations.StepResumesWaitingUpdate := by
  unfold Obligations.StepResumesWaitingUpdate
  exact fun _ _ => step_of_pending

/-! ## A short payload and a breach of it (R335, R336) -/

theorem exec_update_of_short_payloads {s : State} {n : Nat} {data : List Byte} (hn : data.length < n)
    (hh : s.host = payloads data) : exec (.update n) s = .next { s with pending := some n } :=
  exec_update_of_short (hh ▸ takePayload_short hn)

/-- Settles O10: UPDATE with a short payload only sets the waiting register, which a step of the waiting UPDATE sets to
what it holds already. -/
theorem shortPayloadWaits : Obligations.ShortPayloadWaits := by
  unfold Obligations.ShortPayloadWaits
  refine fun s n data hn hh => ⟨exec_update_of_short_payloads hn hh, fun hp => ?_⟩
  rw [step_of_pending hp, exec_update_of_short_payloads hn (by exact hh), ← hp]

theorem step_of_payload {s : State} {x : Byte} {rest : List HostAction} (hp : s.pending = none)
    (hh : s.host = .payload x :: rest) : step s = .refused .strayPayload := by
  simp [step, fetch, hp, hh]

/-- A command that a reset cuts short comes with more bytes than its word takes. -/
theorem step_of_resetDuring_stray {s : State} {cmd : Word32} {data : List Byte} {rest : List HostAction}
    (hp : s.pending = none) (hh : s.host = .resetDuring cmd data :: rest)
    (hl : payloadLength (decode cmd) < data.length) : step s = .refused .strayPayload := by
  simp [step, fetch, hp, hh, Nat.not_le.mpr hl]

/-- Settles O11: a command word interrupts the payload, cut short by a reset or not, and bytes beyond what the word takes
are stray. -/
theorem payloadDutyBreachStops : Obligations.PayloadDutyBreachStops := by
  unfold Obligations.PayloadDutyBreachStops
  refine ⟨fun s n data a rest hn ha hh => exec_update_of_interrupted ?_, fun _ _ _ => step_of_payload,
    fun s cmd data rest hp hh hbytes => step_of_resetDuring_stray hp hh ?_⟩
  · rw [hh]
    rcases ha with ⟨cmd, rfl⟩ | ⟨cmd, d, rfl⟩
    · exact takePayload_command hn cmd rest
    · exact takePayload_resetDuring hn cmd d rest
  · rcases hbytes with ⟨n, hd, hn⟩ | ⟨hd, hne⟩
    · rwa [hd]
    · rw [payloadLength_of_not_update hd]
      exact List.length_pos_iff.mpr hne

/-! ## Reset of a command in progress (R330, R332) -/

/-- A reset after some of UPDATE's payload: the command is abandoned, and of the bytes that were still owed, `left` come
after the reset and are discarded. -/
theorem exec_update_of_owed {s : State} {n : Nat} {data left : List Byte} {rest : List HostAction}
    (hl : data.length + left.length ≤ n)
    (hend : data.length + left.length = n ∨ ∀ x, rest.head? ≠ some (.payload x)) (hn : data.length < n)
    (hh : s.host = payloads data ++ .reset :: (payloads left ++ rest)) :
    exec (.update n) s = .next (State.applyReset { s with host := rest }) := by
  have htake : takePayload n s.host = .reset rest := by
    rw [hh, takePayload_reset hn, discardPayload_owed hl hend]
  exact exec_update_of_reset htake

/-- Settles O13: wherever the reset lands, the step answers `applyReset` with the host's actions after the abandoned
command, and `applyReset` reads nothing else but the trace, RSP and the counter of free values. -/
theorem resetFromEveryState : Obligations.ResetFromEveryState := by
  unfold Obligations.ResetFromEveryState
  intro s rest hlands
  change step s = .next (State.applyReset { s with host := rest })
  obtain ⟨hp, hh⟩ | ⟨cmd, hp, hd, hh⟩ | ⟨n, data, left, hl, hend, ⟨cmd, hp, hd, hh | ⟨hn, hh⟩⟩ | ⟨hp, hn, hh⟩⟩ := hlands
  · exact step_of_reset hp hh
  · rw [step_of_resetDuring hp hh (Nat.zero_le _), payloadLength_of_not_update hd]
    simp
  · have hdata : data.length ≤ payloadLength (decode cmd) := by
      rw [hd, payloadLength_update]
      omega
    rw [step_of_resetDuring hp hh hdata, hd, payloadLength_update, discardPayload_owed hl hend]
  · rw [step_of_command hp hh hd]
    exact exec_update_of_owed hl hend hn rfl
  · rw [step_of_pending hp]
    exact exec_update_of_owed (s := { s with pending := none }) hl hend hn hh

/-! ## The longest message (R339) -/

/-- The length check of R221 in bytes, 8 bits each. -/
theorem State.HoldsMessage.hasRoom_iff {s : State} {v : Variant} {msg : List Byte} (h : s.HoldsMessage v msg) (n : Nat) :
    s.HasRoom n ↔ msg.length + n ≤ if v = .v256 then 2 ^ 61 - 1 else 2 ^ 125 - 1 := by
  obtain ⟨hbits, hbound⟩ := h.bits
  rw [State.HasRoom, hbits, hbound]
  cases v with
  | v256 =>
    rw [if_pos rfl, counterBound]
    omega
  | v512 =>
    rw [if_neg (by decide), counterBound]
    omega
  | v384 =>
    rw [if_neg (by decide), counterBound]
    omega

/-- Settles O58: UPDATE accumulates when the counter has room and faults when it has none, and the length of the message
held says which. -/
theorem messageLengthBound : Obligations.MessageLengthBound := by
  unfold Obligations.MessageLengthBound
  intro s v msg data rest h _ hh
  refine ⟨_, exec_update_of_live h.1 hh, ?_⟩
  rw [← (h.setHost rest).hasRoom_iff]
  by_cases hr : State.HasRoom { s with host := rest } data.length
  · have hphase := update_phase hr
    exact ⟨iff_of_true hphase hr, fun hne => absurd hphase hne⟩
  · rw [update_of_no_room hr]
    exact ⟨iff_of_false (by simp) hr, fun _ => ⟨rfl, rfl⟩⟩

end Sys2Proof.Machine
end
